-- ==== Sys2Proof/Word.lean ====
section
/-! DEFINITION. The word types: a byte of a message (00_scope R6, R8) and the 13-bit command word (30_encoding R51). -/

namespace Sys2Proof

/-- A message byte, `b[7:0]`, bit 0 the least significant (00_scope R8). -/
abbrev Byte := BitVec 8

/-- A command word, `cmd[12:0]` (30_encoding R51). -/
abbrev CmdWord := BitVec 13

end Sys2Proof
end

