-- ==== Sys2Proof/Syntax.lean ====
section
/-! DEFINITION. The structured input and output of the block, and its four operations: one constructor of `Instr` for each
row of spec/opcode_table.json. -/

namespace Sys2Proof

/-- "enumeration {NOTE, CONTROL_CHANGE}" (10_state R18). -/
inductive ButtonFunction where
  | note
  | controlChange
  deriving DecidableEq, Repr

/-- The structured input (10_state R19); each field has its default, so `{}` is `{NOTE, 0, 0}`. The integers are unbounded
here: a value outside its range is a precondition violation that the machine refuses (60_exceptions R87). -/
structure ButtonConfig where
  function : ButtonFunction := .note
  channel : Int := 0
  value : Int := 0
  deriving DecidableEq, Repr

/-- "every entry equals default ButtonConfig{NOTE, 0, 0}" (10_state R19). -/
def ButtonConfig.default : ButtonConfig := {}

/-- The four operations (30_encoding R55), each with its channel and its note or controller number (30_encoding R63). -/
inductive Instr where
  /-- NOTE_ON, 40_encode R72: a NOTE button pressed. -/
  | noteOn (channel value : Int)
  /-- CC_PRESS, 40_encode R74: a CONTROL_CHANGE button pressed. -/
  | ccPress (channel value : Int)
  /-- NOTE_OFF, 40_encode R73: a NOTE button released. -/
  | noteOff (channel value : Int)
  /-- CC_RELEASE, 40_encode R75: a CONTROL_CHANGE button released. -/
  | ccRelease (channel value : Int)
  deriving DecidableEq, Repr

/-- "Ordered sequence of 2 or 3 bytes: `[status, data1, (data2)]`" (10_state R23), as a status, a data1 and an optional
data2, so that no message has another length. -/
structure MidiMessage where
  status : Byte
  data1 : Byte
  data2 : Option Byte
  deriving DecidableEq, Repr

/-- The input side of the port view (10_state R24): widths 1, 4, 7 and 1. -/
structure PortInputs where
  /-- `in_function`: 0 NOTE, 1 CONTROL_CHANGE. -/
  function : BitVec 1
  /-- `in_channel`. -/
  channel : BitVec 4
  /-- `in_value`. -/
  value : BitVec 7
  /-- `in_is_release`: 0 press, 1 release. -/
  isRelease : BitVec 1
  deriving DecidableEq, Repr

/-- The output side of the port view (10_state R24). -/
structure PortOutputs where
  /-- `out_len`: 2 or 3. -/
  len : BitVec 2
  /-- `out_b0`: status. -/
  b0 : Byte
  /-- `out_b1`: data1. -/
  b1 : Byte
  /-- `out_b2`: data2 when `out_len` is 3, else 0x00 and not part of the message. -/
  b2 : Byte
  deriving DecidableEq, Repr

end Sys2Proof
end

