-- ==== Sys2Proof/Machine/Flags.lean ====
section
/-! DEFINITION. The block has no status flags (10_state R17) and no operation writes one (40_encode R71). What a reader of its
bytes tests in their place are fields of the bytes themselves, given here: the status nibbles (20_memory R35) and bit 7, the
mark of a status byte (30_encoding R61, R66). -/

namespace Sys2Proof.Machine

/-- `status[7:4]`, the message type (20_memory R35). -/
def messageType (status : Byte) : BitVec 4 := status.extractLsb' 4 4

/-- `status[3:0]`, the channel (20_memory R35). -/
def messageChannel (status : Byte) : BitVec 4 := status.extractLsb' 0 4

/-- "A byte with bit 7 set always starts a message" (30_encoding R61). -/
def startsMessage (b : Byte) : Bool := b.getLsbD 7

/-- "`status[7]` = 1, `data1[7]` = 0, and, when present, `data2[7]` = 0" (30_encoding R66). -/
def messageWellFormed (m : MidiMessage) : Bool :=
  startsMessage m.status && !startsMessage m.data1 &&
    match m.data2 with
    | none => true
    | some d => !startsMessage d

end Sys2Proof.Machine
end

