-- ==== Sys2Proof/Config.lean ====
section
/-! DEFINITION. What is fixed for the machine: the operand ranges (00_scope R6), and the free values, which nothing in
Lean can evaluate. The message constants stand in Machine/Operands.lean. -/

namespace Sys2Proof.Config

/-- `CHANNEL_MIN` (00_scope R6). -/
def channelMin : Int := 0
/-- `CHANNEL_MAX` (00_scope R6): "zero-based MIDI channel". -/
def channelMax : Int := 15
/-- `VALUE_MIN` (00_scope R6). -/
def valueMin : Int := 0
/-- `VALUE_MAX` (00_scope R6). -/
def valueMax : Int := 127

/-- FREE VALUE: what the transport's `send(bytes) -> bool` answers (60_exceptions R99), applied to the state's counter and
to the bytes sent. The spec does not say when a send succeeds (91_not_in_source N10). UNVERIFIED, log entry 7. -/
opaque sendResult : Nat → List Byte → Bool

/-- FREE VALUE: what the transport's `open_port(index) -> bool` answers (60_exceptions R99), applied to the state's counter
and to the index. DESIGN CHOICE, log entry 8. -/
opaque openPortResult : Nat → Nat → Bool

end Sys2Proof.Config
end

