-- ==== Sys2Proof/WellFormed.lean ====
section
/-! DEFINITION. Well-formedness: the operand ranges of 10_state R19, the encoder's domain (10_state R20, 40_encode R67). -/

namespace Sys2Proof

/-- `channel` lies in 0..15 (10_state R19). -/
def channelInRange (c : Int) : Bool :=
  decide (Config.channelMin ≤ c ∧ c ≤ Config.channelMax)

/-- `value` lies in 0..127 (10_state R19). -/
def valueInRange (v : Int) : Bool :=
  decide (Config.valueMin ≤ v ∧ v ≤ Config.valueMax)

/-- The range invariant of one ButtonConfig (10_state R20). -/
def ButtonConfig.inRange (cfg : ButtonConfig) : Bool :=
  channelInRange cfg.channel && valueInRange cfg.value

/-- An operation whose operands are in range (30_encoding R63: "An operand outside its range does not assemble"). -/
def Instr.wellFormed : Instr → Bool
  | .noteOn c v => channelInRange c && valueInRange v
  | .ccPress c v => channelInRange c && valueInRange v
  | .noteOff c v => channelInRange c && valueInRange v
  | .ccRelease c v => channelInRange c && valueInRange v

end Sys2Proof
end

