-- ==== Sys2Proof/Decode.lean ====
section
/-! DEFINITION. From command words, port lines and structured requests to operations, and back: the field extraction of
30_encoding R52, the opcode map of R54 and R55, the structured selection of R56, and `pack` of R51. -/

namespace Sys2Proof

/-! ### The fields of an operation -/

/-- The channel operand of an operation. -/
def Instr.channel : Instr → Int
  | .noteOn c _ => c
  | .ccPress c _ => c
  | .noteOff c _ => c
  | .ccRelease c _ => c

/-- The note or controller number of an operation. -/
def Instr.value : Instr → Int
  | .noteOn _ v => v
  | .ccPress _ v => v
  | .noteOff _ v => v
  | .ccRelease _ v => v

/-- The button function an operation stands for (30_encoding R56). -/
def Instr.function : Instr → ButtonFunction
  | .noteOn _ _ => .note
  | .ccPress _ _ => .controlChange
  | .noteOff _ _ => .note
  | .ccRelease _ _ => .controlChange

/-- The direction an operation stands for: press `false`, release `true` (10_state R22, 30_encoding R56). -/
def Instr.isRelease : Instr → Bool
  | .noteOn _ _ => false
  | .ccPress _ _ => false
  | .noteOff _ _ => true
  | .ccRelease _ _ => true

/-- The ButtonConfig of an operation. -/
def Instr.config (i : Instr) : ButtonConfig :=
  { function := i.function, channel := i.channel, value := i.value }

/-- The operation a structured request selects (30_encoding R56). -/
def Instr.ofRequest (cfg : ButtonConfig) (isRelease : Bool) : Instr :=
  match cfg.function, isRelease with
  | .note, false => .noteOn cfg.channel cfg.value
  | .note, true => .noteOff cfg.channel cfg.value
  | .controlChange, false => .ccPress cfg.channel cfg.value
  | .controlChange, true => .ccRelease cfg.channel cfg.value

/-- The spec's name of an operation (30_encoding R55). -/
def Instr.mnemonic : Instr → String
  | .noteOn _ _ => "NOTE_ON"
  | .ccPress _ _ => "CC_PRESS"
  | .noteOff _ _ => "NOTE_OFF"
  | .ccRelease _ _ => "CC_RELEASE"

/-! ### Decoding a command word -/

/-- `cmd[12]`, `is_release` (30_encoding R51). -/
def fieldRelease (cmd : CmdWord) : BitVec 1 := cmd.extractLsb' 12 1
/-- `cmd[11]`, `function` (30_encoding R51). -/
def fieldFunction (cmd : CmdWord) : BitVec 1 := cmd.extractLsb' 11 1
/-- `cmd[10:7]`, `channel` (30_encoding R51). -/
def fieldChannel (cmd : CmdWord) : BitVec 4 := cmd.extractLsb' 7 4
/-- `cmd[6:0]`, `value` (30_encoding R51). -/
def fieldValue (cmd : CmdWord) : BitVec 7 := cmd.extractLsb' 0 7

/-- `NOTE` is 0, `CONTROL_CHANGE` is 1 (10_state R18). -/
def functionOfBit (f : BitVec 1) : ButtonFunction :=
  if f = 0#1 then .note else .controlChange

/-- `NOTE` is 0, `CONTROL_CHANGE` is 1 (10_state R18). -/
def bitOfFunction : ButtonFunction → BitVec 1
  | .note => 0#1
  | .controlChange => 1#1

/-- The operation of four field values, each zero-extended: "No field is signed, scaled or shifted" (30_encoding R52). -/
def Instr.ofFields (r f : BitVec 1) (c : BitVec 4) (v : BitVec 7) : Instr :=
  Instr.ofRequest { function := functionOfBit f, channel := (c.toNat : Int), value := (v.toNat : Int) } (r == 1#1)

/-- Decoding is total: "All 8192 values of `cmd[12:0]` decode to one of the four operations" (30_encoding R57). -/
def decode (cmd : CmdWord) : Instr :=
  Instr.ofFields (fieldRelease cmd) (fieldFunction cmd) (fieldChannel cmd) (fieldValue cmd)

/-- Why a number presented as a command word is refused. -/
inductive DecodeReject where
  /-- The number does not fit the 13 bits of `cmd[12:0]` (30_encoding R51). DESIGN CHOICE, log entry 3. -/
  | notACommandWord (word : Nat)
  deriving DecidableEq, Repr

/-- A number presented at the command-word interface. One that fits no 13-bit word is rejected by name, never masked to one
(log entry 3). -/
def decodeNumber (word : Nat) : Except DecodeReject Instr :=
  if word < 8192 then .ok (decode (BitVec.ofNat 13 word)) else .error (.notACommandWord word)

/-- The host's numbering (spec/opcode_table.json): bit 0 is the least significant bit of the one 13-bit word, which the
table's row holds in 16 bits; bits at and above `nbits` are 0. -/
def decodeTableWord (nbits w : Nat) : Option Instr :=
  match decodeNumber (w % 2 ^ nbits) with
  | .ok i => some i
  | .error _ => none

/-- The operation the port lines present (10_state R24). -/
def PortInputs.instr (p : PortInputs) : Instr :=
  Instr.ofFields p.isRelease p.function p.channel p.value

/-! ### Encoding -/

/-- `{r, f, channel[3:0], value[6:0]}` (30_encoding R51). -/
def packFields (r f : BitVec 1) (c : BitVec 4) (v : BitVec 7) : CmdWord :=
  r ++ f ++ c ++ v

/-- The 4-bit channel field of an in-range channel (10_state R24). -/
def channelBits (c : Int) : BitVec 4 := BitVec.ofInt 4 c

/-- The 7-bit value field of an in-range value (10_state R24). -/
def valueBits (v : Int) : BitVec 7 := BitVec.ofInt 7 v

/-- The port lines that present an operation (10_state R24). -/
def Instr.ports (i : Instr) : PortInputs :=
  { function := bitOfFunction i.function, channel := channelBits i.channel, value := valueBits i.value,
    isRelease := BitVec.ofBool i.isRelease }

/-- The command word of the port lines (10_state R24, 30_encoding R51). -/
def PortInputs.pack (p : PortInputs) : CmdWord :=
  packFields p.isRelease p.function p.channel p.value

/-- The command word of an operation. "A structured request whose `channel` or `value` is out of range cannot be packed"
(30_encoding R57): it has none. -/
def encode (i : Instr) : Option CmdWord :=
  if i.wellFormed then some i.ports.pack else none

/-! ### The opcode table -/

/-- A row of the opcode table (30_encoding R55): name, match, mask and the length of the message it yields (R60). -/
structure OpcodeRow where
  mnemonic : String
  pattern : CmdWord
  mask : CmdWord
  messageLength : Nat
  deriving DecidableEq, Repr

/-- The four rows of 30_encoding R55. -/
def opcodeTable : List OpcodeRow :=
  [ ⟨"NOTE_ON", 0x0000#13, 0x1800#13, 3⟩,
    ⟨"CC_PRESS", 0x0800#13, 0x1800#13, 2⟩,
    ⟨"NOTE_OFF", 0x1000#13, 0x1800#13, 2⟩,
    ⟨"CC_RELEASE", 0x1800#13, 0x1800#13, 2⟩ ]

/-- "A word `cmd` selects operation `op` exactly when `cmd & mask == match`" (30_encoding R55). -/
def OpcodeRow.selects (row : OpcodeRow) (cmd : CmdWord) : Bool :=
  cmd &&& row.mask == row.pattern

/-! ### Pseudo-operations -/

/-- The pseudo-operations (30_encoding R64). -/
inductive Pseudo where
  /-- `PRESS cfg`. -/
  | press (cfg : ButtonConfig)
  /-- `RELEASE cfg`. -/
  | release (cfg : ButtonConfig)
  /-- `ENCODE cfg, is_release`, the source's own call. -/
  | encode (cfg : ButtonConfig) (isRelease : Bool)
  deriving DecidableEq, Repr

/-- `PRESS {NOTE, c, v}` is `NOTE_ON c, v` and `PRESS {CONTROL_CHANGE, c, v}` is `CC_PRESS c, v` (30_encoding R64). -/
def expandPress : ButtonConfig → Instr
  | ⟨.note, c, v⟩ => .noteOn c v
  | ⟨.controlChange, c, v⟩ => .ccPress c v

/-- `RELEASE {NOTE, c, v}` is `NOTE_OFF c, v` and `RELEASE {CONTROL_CHANGE, c, v}` is `CC_RELEASE c, v`
(30_encoding R64). -/
def expandRelease : ButtonConfig → Instr
  | ⟨.note, c, v⟩ => .noteOff c v
  | ⟨.controlChange, c, v⟩ => .ccRelease c v

/-- "Each expands to one of the four operations" (30_encoding R64). -/
def Pseudo.expand : Pseudo → Instr
  | .press cfg => expandPress cfg
  | .release cfg => expandRelease cfg
  | .encode cfg isRelease => if isRelease then expandRelease cfg else expandPress cfg

end Sys2Proof
end

