-- ==== Sys2Proof/Machine/State.lean ====
section
/-! DEFINITION. The state of the machine as plain data: what 10_state R31 lists for the block and for the environment the
model runs around it, the observation of a run (70_reset R116), and the requests the host has presented. -/

namespace Sys2Proof.Machine

/-- A device's stable identifier (10_state R29). The spec gives it no type (91_not_in_source N17): DESIGN CHOICE, log
entry 10. -/
abbrev DeviceId := Nat

/-- The "Opaque handle" of an attached controller (10_state R29). DESIGN CHOICE, log entry 10. -/
abbrev Handle := Nat

/-- The active controller (10_state R29) with the button count it reported (10_state R27). -/
structure ActiveController where
  handle : Handle
  deviceId : DeviceId
  buttonCount : Nat
  deriving DecidableEq, Repr

/-- "states {NO_CONTROLLER, ACTIVE}" (10_state R30). -/
inductive Lifecycle where
  | noController
  | active
  deriving DecidableEq, Repr

/-- The surrounding system's errors (60_exceptions R86): none is raised by the block and none is fatal. -/
inductive EnvError where
  | deviceUnavailable
  | outOfBoundsButton
  | transportSendFailure
  deriving DecidableEq, Repr

/-- How an `on_attach` ended (60_exceptions R96). -/
inductive AttachOutcome where
  /-- The device was opened and installed; true was returned. -/
  | installed
  /-- A controller was already active; false was returned. -/
  | alreadyActive
  /-- The open failed; false was returned. -/
  | openFailed
  deriving DecidableEq, Repr

/-- What the environment returns to a caller or logs (60_exceptions R86, R96, R98, R99, R102). The form of the log is not in
the source (91_not_in_source N11): DESIGN CHOICE, log entry 13. -/
inductive Report where
  /-- `on_attach` ended so. -/
  | attachReturned (device : DeviceId) (outcome : AttachOutcome)
  /-- `on_detach` released the handle (60_exceptions R97). -/
  | handleReleased (handle : Handle)
  /-- The router dropped a press or release whose index is out of bounds (60_exceptions R88). -/
  | buttonDropped (index : Int) (isRelease : Bool)
  /-- `send` returned this (60_exceptions R99). -/
  | sendReturned (accepted : Bool)
  /-- `open_port` returned this (60_exceptions R99); the index's type is a DESIGN CHOICE, log entry 8. -/
  | openPortReturned (index : Nat) (opened : Bool)
  deriving DecidableEq, Repr

/-- One move of the host (60_exceptions R95), or one request at an interface of the block itself. A move the spec gives the
host no transition for ("no move") has no constructor. -/
inductive HostEvent where
  /-- Button-press notification (60_exceptions R98). An `Int`, so that both bounds of R88 are checked: log entry 5. -/
  | press (index : Int)
  /-- Button-release notification (60_exceptions R98). -/
  | release (index : Int)
  /-- `on_attach(device_id, button_count)` (60_exceptions R96); `opened` is what opening the device would give: its handle, or
  `none` when the open fails (log entry 6). -/
  | attach (device : DeviceId) (buttonCount : Nat) (opened : Option Handle)
  /-- `on_detach(device_id)` (60_exceptions R97). -/
  | detach (device : DeviceId)
  /-- The configuration UI writes one entry between frames (10_state R28, R21). -/
  | configWrite (index : Int) (cfg : ButtonConfig)
  /-- `list_ports()` (60_exceptions R99): presents nothing to the block (R95). -/
  | listPorts
  /-- `open_port(index)` (60_exceptions R99): presents nothing to the block (R95). The spec gives `index` no type: that it is a
  natural number is a DESIGN CHOICE, log entry 8. -/
  | openPort (index : Nat)
  /-- `close_port()` (60_exceptions R99): presents nothing to the block (R95). -/
  | closePort
  /-- A command word presented to the block directly, as a number (30_encoding R51, 95_test_vectors P4). -/
  | command (word : Nat)
  /-- The port lines driven directly (10_state R24). -/
  | ports (lines : PortInputs)
  /-- A structured request presented to the block directly (40_encode R67). -/
  | request (cfg : ButtonConfig) (isRelease : Bool)
  deriving DecidableEq, Repr

/-- One transaction (10_state R25): the request, kept with its direction (30_encoding R56), and the message returned. -/
structure Transaction where
  request : Instr
  message : MidiMessage
  deriving DecidableEq, Repr

/-- The machine's state. The block's part is `k`, `inputs` and `history`; the rest is the environment's (10_state R27 to
R30), the transport's answers, and the host's pending requests. Outputs and the lifecycle state are computed views. -/
structure State where
  /-- The transaction index (10_state R16). -/
  k : Nat
  /-- The present input lines (10_state R24), `none` while nothing has been presented (log entry 11). -/
  inputs : Option PortInputs
  /-- Every transaction of the run, oldest first (70_reset R116). -/
  history : List Transaction
  /-- ActiveController (10_state R29). -/
  active : Option ActiveController
  /-- ControllerConfigStore (10_state R27). -/
  store : List ButtonConfig
  /-- The arguments of the router's `send` calls, oldest first (70_reset R116). -/
  sends : List MidiMessage
  /-- Results returned and events logged, oldest first (60_exceptions R86). -/
  reports : List Report
  /-- The model's own counter of free values drawn (log entry 7). -/
  draws : Nat
  /-- What the host has presented and the machine has not yet processed, in arrival order (20_memory R42). -/
  pending : List HostEvent
  deriving DecidableEq, Repr

/-- The block "raises no exception" and "never signals an error" (60_exceptions R85): there is no fault to name, so nothing
raises one. Safe: no step ends in a fault (log entry 20). -/
inductive Fault where
  deriving DecidableEq, Repr

/-- Why a step has no meaning. -/
inductive Refusal where
  /-- Raised by an arm of `exec` that has no meaning yet: by none. Safe. -/
  | notModelled (mnemonic : String)
  /-- Raised by every operation whose channel is outside 0..15 (60_exceptions R87): refused, recorded here, no message.
  Safe: it errs toward unprovable. -/
  | channelOutOfRange (channel : Int)
  /-- Raised by every operation whose channel is in range and whose value is outside 0..127 (60_exceptions R87). Safe. -/
  | valueOutOfRange (value : Int)
  /-- Raised when a number presented as a command word does not fit 13 bits (log entry 3). Safe. -/
  | notACommandWord (word : Nat)
  /-- Raised when a configuration write names an entry outside the store (20_memory R33, log entry 9). Safe. -/
  | noSuchEntry (index : Int)
  deriving DecidableEq, Repr

/-- Process start (10_state R31): NO_CONTROLLER, an empty store, `k` 0, nothing presented and nothing observed. -/
def State.reset : State where
  k := 0
  inputs := none
  history := []
  active := none
  store := []
  sends := []
  reports := []
  draws := 0
  pending := []

end Sys2Proof.Machine
end

