-- ==== Sys2Proof/Machine/Operands.lean ====
section
/-! DEFINITION. The constants and the assembly of the message bytes (00_scope R6; 30_encoding R53; 40_encode R67 to R70), the
byte form of a message (20_memory R34), and the port view's outputs (10_state R24). -/

namespace Sys2Proof.Machine

/-! ### The hardwired constants (10_state R17). The literals are unaudited (91_not_in_source N3, N7): UNVERIFIED, log
entry 15. -/

/-- `BASE_NOTE_ON`. -/
def baseNoteOn : Byte := 0x90#8
/-- `BASE_NOTE_OFF`. -/
def baseNoteOff : Byte := 0x80#8
/-- `BASE_CC`. -/
def baseCc : Byte := 0xB0#8
/-- `NOTE_ON_VELOCITY`, decimal ninety (D10). -/
def noteOnVelocity : Byte := 90#8

/-! ### The bytes of a message -/

/-- `zext_8` (00_scope R9). -/
def zext8 {w : Nat} (v : BitVec w) : Byte := v.setWidth 8

/-- `status = base + zext_8(channel)`: "via addition (not replacement)" (40_encode R76). -/
def statusByte (base : Byte) (channel : Int) : Byte := base + zext8 (channelBits channel)

/-- `data1 = zext_8(value)` (40_encode R69). -/
def dataByte (value : Int) : Byte := zext8 (valueBits value)

/-- Format M2 (30_encoding R50). -/
def formatM2 (base : Byte) (channel value : Int) : MidiMessage :=
  { status := statusByte base channel, data1 := dataByte value, data2 := none }

/-- Format M3 (30_encoding R50): data2 is the fixed velocity "whatever `cfg` holds" (40_encode R70). -/
def formatM3 (base : Byte) (channel value : Int) : MidiMessage :=
  { status := statusByte base channel, data1 := dataByte value, data2 := some noteOnVelocity }

/-- `base_status(function, release)` (00_scope R2, 30_encoding R54). -/
def baseStatus (function : ButtonFunction) (isRelease : Bool) : Byte :=
  match function, isRelease with
  | .note, false => baseNoteOn
  | .note, true => baseNoteOff
  | .controlChange, _ => baseCc

/-- `encode(cfg, is_release)` (40_encode R67), the spec's one function over its domain. The four meanings follow the
operations' own rules R72 to R75, and are proved to agree with it. -/
def midiEncode (cfg : ButtonConfig) (isRelease : Bool) : MidiMessage :=
  { status := statusByte (baseStatus cfg.function isRelease) cfg.channel
    data1 := dataByte cfg.value
    data2 := if cfg.function = .note ∧ isRelease = false then some noteOnVelocity else none }

/-- The message as the ordered bytes `[status, data1, (data2)]` (20_memory R34). -/
def messageBytes (m : MidiMessage) : List Byte :=
  match m.data2 with
  | none => [m.status, m.data1]
  | some d => [m.status, m.data1, d]

/-- `len(m)` (00_scope R9). -/
def messageLength (m : MidiMessage) : Nat := (messageBytes m).length

/-! ### The port view -/

/-- The lines the block drives for the lines it is given, as combinational logic over the lines (10_state R24):
`out_b2` is 0x00 when `out_len` is 2 (D6). -/
def portOutputs (p : PortInputs) : PortOutputs :=
  let three := p.function = 0#1 ∧ p.isRelease = 0#1
  { len := if three then 3#2 else 2#2
    b0 := baseStatus (functionOfBit p.function) (p.isRelease == 1#1) + zext8 p.channel
    b1 := zext8 p.value
    b2 := if three then noteOnVelocity else 0x00#8 }

/-- The port form of a message (10_state R24). -/
def messageOnPorts (m : MidiMessage) : PortOutputs :=
  { len := if m.data2.isSome then 3#2 else 2#2, b0 := m.status, b1 := m.data1, b2 := m.data2.getD 0x00#8 }

/-- The block's outputs: "`encode` of the present inputs; no stored value" (10_state R31). -/
def State.outputs (s : State) : Option PortOutputs := s.inputs.map portOutputs

end Sys2Proof.Machine
end

