-- ==== Sys2Proof/Machine/Ops.lean ====
section
/-! DEFINITION. The shared operations: performing one transaction (10_state R25), reporting, and the transport's `send`.
There is no taking of an exception and no return from one here: the block raises none, saves nothing and returns from nothing
(60_exceptions R85, R91, R92). -/

namespace Sys2Proof.Machine

/-- The state after one transaction: the index advances by exactly one (10_state R16), the input lines are the request's, and
the request and its message join the run's observation (70_reset R116). Nothing else changes. -/
def recordTransaction (i : Instr) (m : MidiMessage) (s : State) : State :=
  { s with k := s.k + 1, inputs := some i.ports, history := s.history ++ [⟨i, m⟩] }

/-- One transaction of the operation `i` that returns `m`. An out-of-range operand is refused, never clamped, wrapped, masked
or defaulted (60_exceptions R87); the channel is looked at first (log entry 4). -/
def transact (i : Instr) (m : MidiMessage) (s : State) : Host.Outcome State Fault Refusal :=
  if channelInRange i.channel then
    if valueInRange i.value then .next (recordTransaction i m s)
    else .refused (.valueOutOfRange i.value)
  else .refused (.channelOutOfRange i.channel)

/-- One more report (60_exceptions R86). -/
def report (r : Report) (s : State) : State :=
  { s with reports := s.reports ++ [r] }

/-- The router's `send(bytes)` (60_exceptions R98, R99): the whole message is handed over as one unit (20_memory R38), the
answer is a free value, and a failed send is only reported: it is not retried and nothing else depends on it. -/
def sendMessage (m : MidiMessage) (s : State) : State :=
  report (.sendReturned (Config.sendResult s.draws (messageBytes m)))
    { s with sends := s.sends ++ [m], draws := s.draws + 1 }

end Sys2Proof.Machine
end

