-- ==== Sys2Proof/Machine/ControlChange.lean ====
section
/-! DEFINITION. The meanings of CC_PRESS (40_encode R74) and CC_RELEASE (40_encode R75), which return the same message: the
flagged ambiguity of 70_reset R114, kept as it is. -/

namespace Sys2Proof.Machine

/-- CC_PRESS: `return [0xB0 + c, v]` (40_encode R74), two bytes (D7, 90_conflicts C2). -/
def execCcPress (c v : Int) (s : State) : Host.Outcome State Fault Refusal :=
  transact (.ccPress c v) (formatM2 baseCc c v) s

/-- CC_RELEASE: `return [0xB0 + c, v]` (40_encode R75), never suppressed (D8, 90_conflicts C4). -/
def execCcRelease (c v : Int) (s : State) : Host.Outcome State Fault Refusal :=
  transact (.ccRelease c v) (formatM2 baseCc c v) s

end Sys2Proof.Machine
end

