-- ==== Sys2Proof/Machine/Note.lean ====
section
/-! DEFINITION. The meanings of NOTE_ON (40_encode R72) and NOTE_OFF (40_encode R73). -/

namespace Sys2Proof.Machine

/-- NOTE_ON: `return [0x90 + c, v, 90]` (40_encode R72). -/
def execNoteOn (c v : Int) (s : State) : Host.Outcome State Fault Refusal :=
  transact (.noteOn c v) (formatM3 baseNoteOn c v) s

/-- NOTE_OFF: `return [0x80 + c, v]` (40_encode R73), with no release velocity (D9). -/
def execNoteOff (c v : Int) (s : State) : Host.Outcome State Fault Refusal :=
  transact (.noteOff c v) (formatM2 baseNoteOff c v) s

end Sys2Proof.Machine
end

