-- ==== Sys2Proof/Machine/Dispatch.lean ====
section
/-! DEFINITION. One arm per operation of spec/opcode_table.json. -/

namespace Sys2Proof.Machine

-- Each arm calls its operation's own meaning.
def exec (i : Instr) (s : State) : Host.Outcome State Fault Refusal :=
  match i with
  | .noteOn c v => Sys2Proof.Machine.execNoteOn c v s
  | .ccPress c v => Sys2Proof.Machine.execCcPress c v s
  | .noteOff c v => Sys2Proof.Machine.execNoteOff c v s
  | .ccRelease c v => Sys2Proof.Machine.execCcRelease c v s

end Sys2Proof.Machine
end

