-- ==== Sys2Proof/Machine/Environment.lean ====
section
/-! DEFINITION. The block's environment: the lifecycle manager (60_exceptions R96, R97; 10_state R30), the configuration UI's
writes (10_state R20, R21, R28), the transport's port calls (60_exceptions R99), and what each report stands for (R86). -/

namespace Sys2Proof.Machine

/-! ### Views of the environment's state -/

/-- The lifecycle state (10_state R30), a view of `active`. -/
def State.lifecycle (s : State) : Lifecycle :=
  match s.active with
  | none => .noController
  | some _ => .active

/-- "the attached controller's reported button count, or zero when no controller is attached" (10_state R27). -/
def State.reportedButtons (s : State) : Nat :=
  match s.active with
  | none => 0
  | some a => a.buttonCount

/-- The store entry at a button index, `none` outside `0 <= i < len(ControllerConfigStore)` (20_memory R33). -/
def State.storeEntry (s : State) (index : Int) : Option ButtonConfig :=
  if 0 ≤ index then s.store[index.toNat]? else none

/-! ### Attach and detach -/

/-- `on_attach(device_id, button_count)` (60_exceptions R96). In ACTIVE every attach is ignored, for the same device too
(90_conflicts C6). -/
def onAttach (device : DeviceId) (buttonCount : Nat) (opened : Option Handle) (s : State) : State :=
  match s.active with
  | some _ => report (.attachReturned device .alreadyActive) s
  | none =>
    match opened with
    | none => report (.attachReturned device .openFailed) s
    | some handle =>
      report (.attachReturned device .installed)
        { s with
          active := some { handle := handle, deviceId := device, buttonCount := buttonCount }
          store := List.replicate buttonCount ButtonConfig.default }

/-- `on_detach(device_id)` (60_exceptions R97). -/
def onDetach (device : DeviceId) (s : State) : State :=
  match s.active with
  | none => s
  | some a =>
    if a.deviceId = device then report (.handleReleased a.handle) { s with active := none, store := [] } else s

/-! ### The configuration UI -/

/-- `clamp(x, lo, hi)` (10_state R21). -/
def clamp (x lo hi : Int) : Int :=
  if x < lo then lo else if x > hi then hi else x

/-- What a mutator stores for a ButtonConfig (10_state R20, R21). -/
def clampConfig (cfg : ButtonConfig) : ButtonConfig :=
  { function := cfg.function
    channel := clamp cfg.channel Config.channelMin Config.channelMax
    value := clamp cfg.value Config.valueMin Config.valueMax }

/-- The configuration UI writes one entry, clamped (10_state R21, R28). Outside the store's index domain (20_memory R33) there
is no entry to write: refused (log entry 9). -/
def configWrite (index : Int) (cfg : ButtonConfig) (s : State) : Host.Outcome State Fault Refusal :=
  match s.storeEntry index with
  | none => .refused (.noSuchEntry index)
  | some _ => .next { s with store := s.store.set index.toNat (clampConfig cfg) }

/-! ### The transport's ports -/

/-- `open_port(index) -> bool` (60_exceptions R99): the result, a free value, goes to the caller (R86). -/
def openPort (index : Nat) (s : State) : State :=
  report (.openPortReturned index (Config.openPortResult s.draws index)) { s with draws := s.draws + 1 }

/-! ### What a report stands for -/

/-- The boolean a call returned to its caller, if the report is one of a call (60_exceptions R86, R96, R99). -/
def Report.returned : Report → Option Bool
  | .attachReturned _ .installed => some true
  | .attachReturned _ .alreadyActive => some false
  | .attachReturned _ .openFailed => some false
  | .handleReleased _ => none
  | .buttonDropped _ _ => none
  | .sendReturned accepted => some accepted
  | .openPortReturned _ opened => some opened

/-- The environment error a report stands for (60_exceptions R86). An ignored attach is none: "(ignored)" (10_state R30;
DEDUCED, log entry 13). -/
def Report.error : Report → Option EnvError
  | .attachReturned _ .installed => none
  | .attachReturned _ .alreadyActive => none
  | .attachReturned _ .openFailed => some .deviceUnavailable
  | .handleReleased _ => none
  | .buttonDropped _ _ => some .outOfBoundsButton
  | .sendReturned accepted => if accepted then none else some .transportSendFailure
  | .openPortReturned _ opened => if opened then none else some .deviceUnavailable

/-- Whether the router logs it: "logging by the router of dropped events and failed sends" (60_exceptions R102). -/
def Report.logged : Report → Bool
  | .attachReturned _ _ => false
  | .handleReleased _ => false
  | .buttonDropped _ _ => true
  | .sendReturned accepted => !accepted
  | .openPortReturned _ _ => false

end Sys2Proof.Machine
end

