-- ==== Sys2Proof/Machine/Router.lean ====
section
/-! DEFINITION. What one pending event makes the machine do: "for each raw notification ... dispatch[es] exactly one action"
(60_exceptions R89), the router's dispatch of presses and releases (R98), and the requests presented to the block itself. -/

namespace Sys2Proof.Machine

/-- "forward the result to the external MIDI transport" (60_exceptions R98): the message of the transaction just made. -/
def forwardLast (s : State) : State :=
  match s.history.getLast? with
  | none => s
  | some t => sendMessage t.message s

/-- The router's dispatch of button `index` (60_exceptions R98): in bounds, `encode(ControllerConfigStore[i], is_release)` and
forward the result; otherwise drop, with no transaction (R88). -/
def routeButton (index : Int) (isRelease : Bool) (s : State) : Host.Outcome State Fault Refusal :=
  match s.storeEntry index with
  | none => .next (report (.buttonDropped index isRelease) s)
  | some cfg =>
    match exec (Instr.ofRequest cfg isRelease) s with
    | .next t => .next (forwardLast t)
    | .fault r => .fault r
    | .refused r => .refused r

/-- A number presented as a command word: the operation it decodes to runs (30_encoding R52). -/
def presentWord (word : Nat) (s : State) : Host.Outcome State Fault Refusal :=
  match decodeNumber word with
  | .ok i => exec i s
  | .error (.notACommandWord w) => .refused (.notACommandWord w)

/-- Exactly one action for one event of the host (60_exceptions R95). -/
def handleEvent (e : HostEvent) (s : State) : Host.Outcome State Fault Refusal :=
  match e with
  | .press index => routeButton index false s
  | .release index => routeButton index true s
  | .attach device buttonCount opened => .next (onAttach device buttonCount opened s)
  | .detach device => .next (onDetach device s)
  | .configWrite index cfg => configWrite index cfg s
  | .listPorts => .next s
  | .openPort index => .next (openPort index s)
  | .closePort => .next s
  | .command word => presentWord word s
  | .ports lines => exec lines.instr s
  | .request cfg isRelease => exec (Instr.ofRequest cfg isRelease) s

end Sys2Proof.Machine
end

