-- ==== Sys2Proof/Machine/Step.lean ====
section
/-! DEFINITION. One step: the oldest pending event is processed, whole (20_memory R42). -/

namespace Sys2Proof.Machine

/-- Events are "processed strictly in arrival order, one at a time" (20_memory R42). With nothing presented the block takes no
step (60_exceptions R83), so the state stays as it is (log entry 2). -/
def step (s : State) : Host.Outcome State Fault Refusal :=
  match s.pending with
  | [] => .next s
  | e :: rest => handleEvent e { s with pending := rest }

/-- `s` with the word presented as the next request, at the command-word interface (30_encoding R51; log entry 12). -/
def State.withFetchWord (s : State) (nbits w : Nat) : State :=
  { s with pending := .command (w % 2 ^ nbits) :: s.pending }

end Sys2Proof.Machine
end

