-- ==== Sys2Proof/Machine/Assembly.lean ====
section
/-! DEFINITION. The spec's text forms: the assembly syntax `<OP> <channel>, <value>` of one request (30_encoding R63) and the
bracketed byte list of a message (30_encoding R65), over lists of characters. -/

namespace Sys2Proof.Machine

/-- The value of one digit in a base of at most 16, either case of letter. -/
def digitValue (base : Nat) (ch : Char) : Option Nat :=
  let n := ch.toNat
  let d := if 48 ≤ n ∧ n ≤ 57 then n - 48 else if 65 ≤ n ∧ n ≤ 70 then n - 55 else if 97 ≤ n ∧ n ≤ 102 then n - 87 else 16
  if d < base then some d else none

/-- Digits, most significant first, onto what has been read so far. -/
def readDigits (base : Nat) : List Char → Nat → Option Nat
  | [], acc => some acc
  | ch :: rest, acc =>
    match digitValue base ch with
    | some d => readDigits base rest (acc * base + d)
    | none => none

/-- A numeral "written in decimal or as `0x`-prefixed hexadecimal" (30_encoding R63). -/
def readNumber : List Char → Option Nat
  | [] => none
  | ['0', 'x'] => none
  | '0' :: 'x' :: digits => readDigits 16 digits 0
  | digits => readDigits 10 digits 0

/-- The text before the first separator and the text after it. -/
def cutAt (sep : Char) : List Char → Option (List Char × List Char)
  | [] => none
  | ch :: rest =>
    if ch = sep then some ([], rest)
    else match cutAt sep rest with
      | some (before, after) => some (ch :: before, after)
      | none => none

/-- Why a text does not assemble. -/
inductive AssemblyError where
  /-- The text has not the form `<OP> <channel>, <value>` (log entry 18). -/
  | malformed
  /-- `<OP>` is none of the four names. -/
  | unknownOperation
  /-- "An operand outside its range does not assemble" (30_encoding R63). -/
  | operandOutOfRange
  deriving DecidableEq, Repr

/-- The operation of a name of 30_encoding R63, with its operands. -/
def operationNamed (name : List Char) (c v : Int) : Option Instr :=
  if name = ['N', 'O', 'T', 'E', '_', 'O', 'N'] then some (.noteOn c v)
  else if name = ['N', 'O', 'T', 'E', '_', 'O', 'F', 'F'] then some (.noteOff c v)
  else if name = ['C', 'C', '_', 'P', 'R', 'E', 'S', 'S'] then some (.ccPress c v)
  else if name = ['C', 'C', '_', 'R', 'E', 'L', 'E', 'A', 'S', 'E'] then some (.ccRelease c v)
  else none

/-- One request in the syntax `<OP> <channel>, <value>` (30_encoding R63), with one space after the name and one after the
comma (log entry 18). -/
def assemble (text : List Char) : Except AssemblyError Instr :=
  match cutAt ' ' text with
  | none => .error .malformed
  | some (name, operands) =>
    match cutAt ',' operands with
    | some (channelText, ' ' :: valueText) =>
      match readNumber channelText, readNumber valueText with
      | some c, some v =>
        match operationNamed name (c : Int) (v : Int) with
        | none => .error .unknownOperation
        | some i => if i.wellFormed then .ok i else .error .operandOutOfRange
      | _, _ => .error .malformed
    | _ => .error .malformed

/-- The digits of a number below 1000, in decimal without leading zeros. -/
def decimalText (n : Nat) : List Char :=
  if n < 10 then [Nat.digitChar n]
  else if n < 100 then [Nat.digitChar (n / 10), Nat.digitChar (n % 10)]
  else [Nat.digitChar (n / 100), Nat.digitChar (n / 10 % 10), Nat.digitChar (n % 10)]

/-- The name of an operation as characters (30_encoding R63). -/
def operationText : Instr → List Char
  | .noteOn _ _ => ['N', 'O', 'T', 'E', '_', 'O', 'N']
  | .noteOff _ _ => ['N', 'O', 'T', 'E', '_', 'O', 'F', 'F']
  | .ccPress _ _ => ['C', 'C', '_', 'P', 'R', 'E', 'S', 'S']
  | .ccRelease _ _ => ['C', 'C', '_', 'R', 'E', 'L', 'E', 'A', 'S', 'E']

/-- An upper-case hexadecimal digit (30_encoding R65). -/
def hexDigit (n : Nat) : Char := if n < 10 then Char.ofNat (48 + n) else Char.ofNat (55 + n)

/-- A lower-case hexadecimal digit (log entry 18). -/
def hexDigitLower (n : Nat) : Char := if n < 10 then Char.ofNat (48 + n) else Char.ofNat (87 + n)

/-- How a numeral is written: "in decimal or as `0x`-prefixed hexadecimal" (30_encoding R63), the latter with digits of either
case (log entry 18). -/
inductive Numeral where
  | decimal
  | hexadecimal
  | hexadecimalLower
  deriving DecidableEq, Repr

/-- A number below 256 written as a numeral; hexadecimal ones with no leading zero. -/
def numeralText (form : Numeral) (n : Nat) : List Char :=
  match form with
  | .decimal => decimalText n
  | .hexadecimal => '0' :: 'x' :: (if n < 16 then [hexDigit n] else [hexDigit (n / 16), hexDigit (n % 16)])
  | .hexadecimalLower =>
    '0' :: 'x' :: (if n < 16 then [hexDigitLower n] else [hexDigitLower (n / 16), hexDigitLower (n % 16)])

/-- A well-formed operation written in the syntax of 30_encoding R63, each operand as the numeral chosen for it. -/
def requestText (channelForm valueForm : Numeral) (i : Instr) : List Char :=
  operationText i ++ ' ' :: numeralText channelForm i.channel.toNat ++ ',' :: ' ' :: numeralText valueForm i.value.toNat

/-- A well-formed operation written in the syntax of 30_encoding R63, operands in decimal. -/
def disassemble (i : Instr) : List Char := requestText .decimal .decimal i

/-- A byte in hexadecimal: "every byte in a list is hexadecimal" (30_encoding R65). -/
def byteText (b : Byte) : List Char :=
  ['0', 'x', hexDigit (b.toNat / 16), hexDigit (b.toNat % 16)]

/-- Bytes separated by a comma and a space. -/
def bytesText : List Byte → List Char
  | [] => []
  | [b] => byteText b
  | b :: c :: rest => byteText b ++ ',' :: ' ' :: bytesText (c :: rest)

/-- A message "as a bracketed list of bytes, first byte first" (30_encoding R65). -/
def messageText (m : MidiMessage) : List Char :=
  '[' :: bytesText (messageBytes m) ++ [']']

end Sys2Proof.Machine
end

