-- ==== Sys2Proof/Machine/Stream.lean ====
section
/-! DEFINITION. The byte stream of a run and its framing (30_encoding R61; 70_reset R116). -/

namespace Sys2Proof.Machine

/-- The bytes of messages, one after another, in order (20_memory R34, R42). -/
def streamBytes : List MidiMessage → List Byte
  | [] => []
  | m :: ms => messageBytes m ++ streamBytes ms

/-- The messages the block returned, oldest first (70_reset R116). -/
def State.messages (s : State) : List MidiMessage := s.history.map Transaction.message

/-- "`status[7:4]` = 0x9 means 3 bytes, and 0x8 or 0xB means 2 bytes" (30_encoding R61); no other type occurs (R58). -/
def framedLength (status : Byte) : Option Nat :=
  if messageType status = 0x9#4 then some 3
  else if messageType status = 0x8#4 ∨ messageType status = 0xB#4 then some 2
  else none

/-- A consumer's framing of the block's bytes (30_encoding R61): each message's length is read from its status byte alone, and
nothing else is looked at. `none` where a byte at the place of a status is no status of this block, or the bytes end inside a
message. DESIGN CHOICE, log entry 21: the spec speaks only of this block's own stream; on other bytes the framing checks neither
bit 7 of the data bytes nor that a third byte is the velocity, so it frames some lists that no run of this block gives. -/
def splitStream : List Byte → Option (List MidiMessage)
  | [] => some []
  | [_] => none
  | [status, data1] =>
    if framedLength status = some 2 then some [⟨status, data1, none⟩] else none
  | status :: data1 :: third :: rest =>
    if framedLength status = some 3 then (splitStream rest).map (⟨status, data1, some third⟩ :: ·)
    else if framedLength status = some 2 then (splitStream (third :: rest)).map (⟨status, data1, none⟩ :: ·)
    else none

end Sys2Proof.Machine
end

