-- ==== Sys2Proof/Machine/Run.lean ====
section
/-! DEFINITION. Runs over a stream of host events, which may be endless: "A run is a finite or infinite sequence of
transactions in arrival order" (70_reset R116). The stream is the host's, not the machine's: no field of State holds it. -/

namespace Sys2Proof.Machine

/-- The host presents one more event: it joins the pending ones behind those that arrived before it (20_memory R42). -/
def present (e : HostEvent) (s : State) : State :=
  { s with pending := s.pending ++ [e] }

/-- The first `n` events of a stream, each presented and answered by one step before the next arrives; it stops at the first
refusal. "A finite run ends when the host presents no further request" (70_reset R116). -/
def runEvents (events : Nat → HostEvent) : Nat → State → Host.Outcome State Fault Refusal
  | 0, s => .next s
  | n + 1, s =>
    match step (present (events 0) s) with
    | .next t => runEvents (fun j => events (j + 1)) n t
    | .fault r => .fault r
    | .refused r => .refused r

/-- An infinite run (70_reset R116): from each state, presenting the stream's next event and taking one step gives the next
state, without end. -/
def InfiniteRun (events : Nat → HostEvent) (states : Nat → State) : Prop :=
  ∀ n, step (present (events n) (states n)) = .next (states (n + 1))

/-- Message number `j` of a run's observation (70_reset R116) is `m`: from some state on it stands at place `j` of the messages
returned. Over an infinite run these messages are the whole observation, an endless list only where requests never cease. -/
def ObservedAt (states : Nat → State) (j : Nat) (m : MidiMessage) : Prop :=
  ∃ n, (states n).messages[j]? = some m

end Sys2Proof.Machine
end

