-- ==== Sys2Proof/Safety.lean ====
section
/-! DEFINITION. What holds of every safe state, and the views of a step that statements use. -/

namespace Sys2Proof.Machine

/-- The invariant of the machine. Each clause names the rule it comes from; 10_state R31's process start meets it and every
step keeps it. -/
structure State.Inv (s : State) : Prop where
  /-- "`channel` and `value` are always clamped to their valid ranges by any mutator" (10_state R20). -/
  storeInRange : ∀ cfg ∈ s.store, cfg.inRange = true
  /-- "length always equals the attached controller's reported button count, or zero" (10_state R27). -/
  storeSized : s.store.length = s.reportedButtons
  /-- The index counts the transactions (10_state R16). -/
  counted : s.k = s.history.length
  /-- Every request performed was in range and returned its own message (10_state R25). -/
  historySound : ∀ t ∈ s.history,
    t.request.wellFormed = true ∧ t.message = midiEncode t.request.config t.request.isRelease
  /-- The input lines are those of the last request (10_state R24, R25). -/
  inputsShown : s.inputs = s.history.getLast?.map fun t => t.request.ports
  /-- The router sends only messages the block returned, in their order (20_memory R42). -/
  sendsFromHistory : s.sends.Sublist s.messages

/-- The message the block returns for an operation run in a state, `none` where the step has no next state. -/
def blockReturns (i : Instr) (s : State) : Option MidiMessage :=
  match exec i s with
  | .next t => t.history.getLast?.map Transaction.message
  | .fault _ => none
  | .refused _ => none

/-- The request an event brings to the block in a state, `none` for one that brings none (60_exceptions R83, R84, R88,
R95). -/
def requestOf (s : State) : HostEvent → Option Instr
  | .press index => (s.storeEntry index).map fun cfg => Instr.ofRequest cfg false
  | .release index => (s.storeEntry index).map fun cfg => Instr.ofRequest cfg true
  | .command word => if word < 8192 then some (decode (BitVec.ofNat 13 word)) else none
  | .ports lines => some (decode lines.pack)
  | .request cfg isRelease => some (Instr.ofRequest cfg isRelease)
  | .attach _ _ _ => none
  | .detach _ => none
  | .configWrite _ _ => none
  | .listPorts => none
  | .openPort _ => none
  | .closePort => none

/-- The notification of a button press or release (10_state R22). -/
def buttonEvent (index : Int) (isRelease : Bool) : HostEvent :=
  if isRelease then .release index else .press index

/-- The transaction of a request: the request with the message of 40_encode R67. -/
def transactionOf (i : Instr) : Transaction := ⟨i, midiEncode i.config i.isRelease⟩

/-- `n` steps of the machine from a state, stopping at the first refusal (Host/Core.lean's run of `core`). -/
def runFrom (n : Nat) (s : State) : Host.Outcome State Fault Refusal := Sys2Proof.core.run n s

/-- A run of `n` steps from `s` is safe when it ends in a state, and every message it leaves in the observation is well formed
(30_encoding R66): no fault, no refusal. -/
def SafeRun (n : Nat) (s : State) : Prop :=
  ∃ t, runFrom n s = .next t ∧ ∀ m ∈ t.messages, messageWellFormed m = true

end Sys2Proof.Machine
end

