-- ==== Sys2Proof/Certificates/Slice0/Obligations.lean ====
section
/-! DEFINITION. The statements about the machine, each with the words of the spec it formalises. -/

open Sys2Proof Sys2Proof.Machine

/-! ### Words and operations -/

/-- Words written out from the bit layout of 30_encoding section 1 (`r f cccc vvvvvvv`) decode to the operations that
95_test_vectors L2 lists for them. -/
def Obligations.SampleWordsDecodeAsListed : Prop :=
  decode 0b0000000111100#13 = .noteOn 0 60 ∧ decode 0b0011111111111#13 = .noteOn 15 127 ∧
  decode 0b1010010100100#13 = .noteOff 9 36 ∧ decode 0b1000000111100#13 = .noteOff 0 60 ∧
  decode 0b0100110010100#13 = .ccPress 3 20 ∧ decode 0b0111111111111#13 = .ccPress 15 127 ∧
  decode 0b1100110010100#13 = .ccRelease 3 20 ∧ decode 0b1100000000000#13 = .ccRelease 0 0

/-- `pack(cfg, is_release) = {r, f, channel[3:0], value[6:0]}`: the word's number is the sum of its fields at their places, for
every in-range request. The layout is the spec's own decision D5, not the source's. -/
def Obligations.CommandWordPacksTheFields : Prop :=
  (∀ (f : ButtonFunction) (c v : Int) (r : Bool), 0 ≤ c → c ≤ 15 → 0 ≤ v → v ≤ 127 →
    ∃ w, encode (Instr.ofRequest ⟨f, c, v⟩ r) = some w ∧
      (w.toNat : Int) = (if r then 4096 else 0) + (if f = .controlChange then 2048 else 0) + c * 128 + v) ∧
  encode (Instr.ofRequest ButtonConfig.default false) = some 0x0000#13

/-- The field extraction from a command word: `cmd[12]`, `cmd[11]`, `cmd[10:7]` and `cmd[6:0]`, each zero-extended. Rests on the
spec's decision D5. -/
def Obligations.FieldExtractionFollowsTheLayout : Prop :=
  ∀ cmd : CmdWord,
    ((decode cmd).isRelease = true ↔ cmd.getLsbD 12 = true) ∧
    ((decode cmd).function = .controlChange ↔ cmd.getLsbD 11 = true) ∧
    (decode cmd).channel = ((cmd.toNat / 128 % 16 : Nat) : Int) ∧
    (decode cmd).value = ((cmd.toNat % 128 : Nat) : Int)

/-- Decoding and encoding agree both ways, over every in-range operation and every word: "The extraction is the inverse of
`pack`". Rests on the spec's decision D5. -/
def Obligations.DecodeInvertsEncode : Prop :=
  (∀ i : Instr, i.wellFormed = true → ∃ w, encode i = some w ∧ decode w = i) ∧
  (∀ cmd : CmdWord, encode (decode cmd) = some cmd)

/-- The opcode table: names, matches, masks and message lengths as listed; "A word `cmd` selects operation `op` exactly when
`cmd & mask == match`"; the rows are disjoint and cover every word. Rests on the spec's decisions D5 and D15. -/
def Obligations.OpcodeTableSelectsOneOperation : Prop :=
  opcodeTable = [⟨"NOTE_ON", 0x0000#13, 0x1800#13, 3⟩, ⟨"CC_PRESS", 0x0800#13, 0x1800#13, 2⟩,
    ⟨"NOTE_OFF", 0x1000#13, 0x1800#13, 2⟩, ⟨"CC_RELEASE", 0x1800#13, 0x1800#13, 2⟩] ∧
  ∀ cmd : CmdWord, ∃ row ∈ opcodeTable,
    cmd &&& row.mask = row.pattern ∧ (decode cmd).mnemonic = row.mnemonic ∧
    (∀ other ∈ opcodeTable, cmd &&& other.mask = other.pattern → other = row) ∧
    ∀ s : State, ∃ t m, exec (decode cmd) s = .next t ∧ t.history = s.history ++ [⟨decode cmd, m⟩] ∧
      messageLength m = row.messageLength

/-- "All 8192 values of `cmd[12:0]` decode to one of the four operations with in-range operands", and an out-of-range request
"cannot be packed". The word interface is the spec's decision D5. -/
def Obligations.EveryCommandWordDecodes : Prop :=
  (∀ n : Nat, n < 8192 → ∃ i, decodeNumber n = .ok i ∧ i.wellFormed = true) ∧
  (∀ i : Instr, i.wellFormed = false → encode i = none)

/-- The MODEL'S choice (log entry 3): a number that fits no 13-bit word is refused by name, never masked to one. -/
def Obligations.WideNumberIsRefused : Prop :=
  ∀ (n : Nat) (s : State) (rest : List HostEvent), 8192 ≤ n → s.pending = .command n :: rest →
    decodeNumber n = .error (.notACommandWord n) ∧ step s = .refused (.notACommandWord n)

/-- The selection at the structured interface, and "CC_PRESS and CC_RELEASE produce identical messages for the same
ButtonConfig" while the model records the direction it received (the spec's decision D8). -/
def Obligations.StructuredRequestSelectsTheOperation : Prop :=
  ∀ c v : Int,
    Instr.ofRequest ⟨.note, c, v⟩ false = .noteOn c v ∧ Instr.ofRequest ⟨.note, c, v⟩ true = .noteOff c v ∧
    Instr.ofRequest ⟨.controlChange, c, v⟩ false = .ccPress c v ∧
    Instr.ofRequest ⟨.controlChange, c, v⟩ true = .ccRelease c v ∧
    (0 ≤ c → c ≤ 15 → 0 ≤ v → v ≤ 127 → ∀ s : State, ∃ t u m,
      exec (.ccPress c v) s = .next t ∧ t.history = s.history ++ [⟨.ccPress c v, m⟩] ∧
      exec (.ccRelease c v) s = .next u ∧ u.history = s.history ++ [⟨.ccRelease c v, m⟩])

/-- The two bits `cmd[12:11]` pick the base status 0x90, 0xB0, 0x80 or 0xB0 (30_encoding section 3). The word layout is the
spec's decision D5. -/
def Obligations.OpcodeBitsPickTheBaseStatus : Prop :=
  ∀ (cmd : CmdWord) (s : State), ∃ t m,
    exec (decode cmd) s = .next t ∧ t.history = s.history ++ [⟨decode cmd, m⟩] ∧
    m.status &&& 0xF0#8 =
      (if cmd.extractLsb' 11 2 = 0b00#2 then 0x90#8
       else if cmd.extractLsb' 11 2 = 0b10#2 then 0x80#8
       else 0xB0#8) ∧
    (m.status &&& 0x0F#8).toNat = cmd.toNat / 128 % 16

/-- Each pseudo-operation "expands to one of the four operations"; `ENCODE` is `PRESS` or `RELEASE` by its direction. The
pseudo-operations are the spec's own (D15). -/
def Obligations.PseudoOperationsExpand : Prop :=
  ∀ (f : ButtonFunction) (c v : Int) (d : Bool),
    (Pseudo.press ⟨f, c, v⟩).expand = (if f = .note then .noteOn c v else .ccPress c v) ∧
    (Pseudo.release ⟨f, c, v⟩).expand = (if f = .note then .noteOff c v else .ccRelease c v) ∧
    (Pseudo.encode ⟨f, c, v⟩ d).expand =
      (if d then (Pseudo.release ⟨f, c, v⟩).expand else (Pseudo.press ⟨f, c, v⟩).expand) ∧
    (Pseudo.encode ⟨f, c, v⟩ d).expand = Instr.ofRequest ⟨f, c, v⟩ d

/-- Every in-range operation written in the syntax `<OP> <channel>, <value>` assembles to itself, with each operand "written in
decimal or as `0x`-prefixed hexadecimal" independently of the other. "An operand outside its range does not assemble": a request
in that syntax with an operand of at most 255 out of range is refused as such, and whatever text assembles has the form `<OP>
<channel>, <value>`, its operands exactly the numbers written in it, none cut to its range, and in range. The syntax is the spec's
own (D15); its spacing and the case of hexadecimal digits are the model's (log entry 18). -/
def Obligations.AssemblyTextRoundTrips : Prop :=
  (∀ i : Instr, i.wellFormed = true → assemble (disassemble i) = .ok i) ∧
  (∀ (channelForm valueForm : Numeral) (i : Instr), i.wellFormed = true →
    assemble (requestText channelForm valueForm i) = .ok i) ∧
  (∀ (channelForm valueForm : Numeral) (i : Instr), 0 ≤ i.channel → i.channel < 256 → 0 ≤ i.value → i.value < 256 →
    i.wellFormed = false → assemble (requestText channelForm valueForm i) = .error .operandOutOfRange) ∧
  (∀ (text : List Char) (i : Instr), assemble text = .ok i → i.wellFormed = true ∧
    ∃ (c v : Nat) (channelText valueText : List Char), readNumber channelText = some c ∧ readNumber valueText = some v ∧
      i.channel = c ∧ i.value = v ∧ text = operationText i ++ ' ' :: channelText ++ ',' :: ' ' :: valueText)

/-! ### What each operation returns -/

/-- NOTE_ON: "`return [0x90 + c, v, 90]`", from the words `00ccccvvvvvvv` (the spec's decision D5); no flag is written and no
exception taken: nothing but the transaction's own record changes. -/
def Obligations.NoteOnReturnsThreeBytes : Prop :=
  ∀ (c v : Int) (s : State), 0 ≤ c → c ≤ 15 → 0 ≤ v → v ≤ 127 →
    encode (.noteOn c v) = some (BitVec.ofInt 13 (c * 128 + v)) ∧
    ∃ t m, exec (.noteOn c v) s = .next t ∧ t.history = s.history ++ [⟨.noteOn c v, m⟩] ∧
      messageBytes m = [BitVec.ofInt 8 (0x90 + c), BitVec.ofInt 8 v, 90#8] ∧
      ({ t with k := s.k, inputs := s.inputs, history := s.history } : State) = s

/-- NOTE_OFF: "`return [0x80 + c, v]`", from the words `10ccccvvvvvvv`, with no release velocity (the spec's decision D9). -/
def Obligations.NoteOffReturnsTwoBytes : Prop :=
  ∀ (c v : Int) (s : State), 0 ≤ c → c ≤ 15 → 0 ≤ v → v ≤ 127 →
    encode (.noteOff c v) = some (BitVec.ofInt 13 (4096 + c * 128 + v)) ∧
    ∃ t m, exec (.noteOff c v) s = .next t ∧ t.history = s.history ++ [⟨.noteOff c v, m⟩] ∧
      messageBytes m = [BitVec.ofInt 8 (0x80 + c), BitVec.ofInt 8 v] ∧
      ({ t with k := s.k, inputs := s.inputs, history := s.history } : State) = s

/-- CC_PRESS: "`return [0xB0 + c, v]`", from the words `01ccccvvvvvvv`. Two bytes is the spec's decision D7. -/
def Obligations.CcPressReturnsTwoBytes : Prop :=
  ∀ (c v : Int) (s : State), 0 ≤ c → c ≤ 15 → 0 ≤ v → v ≤ 127 →
    encode (.ccPress c v) = some (BitVec.ofInt 13 (2048 + c * 128 + v)) ∧
    ∃ t m, exec (.ccPress c v) s = .next t ∧ t.history = s.history ++ [⟨.ccPress c v, m⟩] ∧
      messageBytes m = [BitVec.ofInt 8 (0xB0 + c), BitVec.ofInt 8 v] ∧
      ({ t with k := s.k, inputs := s.inputs, history := s.history } : State) = s

/-- CC_RELEASE: "`return [0xB0 + c, v]`", from the words `11ccccvvvvvvv`: never suppressed and no value byte, the spec's
decision D8. -/
def Obligations.CcReleaseReturnsTwoBytes : Prop :=
  ∀ (c v : Int) (s : State), 0 ≤ c → c ≤ 15 → 0 ≤ v → v ≤ 127 →
    encode (.ccRelease c v) = some (BitVec.ofInt 13 (6144 + c * 128 + v)) ∧
    ∃ t m, exec (.ccRelease c v) s = .next t ∧ t.history = s.history ++ [⟨.ccRelease c v, m⟩] ∧
      messageBytes m = [BitVec.ofInt 8 (0xB0 + c), BitVec.ofInt 8 v] ∧
      ({ t with k := s.k, inputs := s.inputs, history := s.history } : State) = s

/-- The whole effect of an in-range operation, for all four: the index advances by exactly one (the spec's decision D22), the
input lines carry the request (D3), one transaction joins the run (D21), and nothing else changes. -/
def Obligations.OperationChangesOnlyItsTransaction : Prop :=
  ∀ (i : Instr) (s : State), i.wellFormed = true →
    ∃ m, exec i s = .next { s with
      k := s.k + 1
      inputs := some
        { function := if i.function = .note then 0#1 else 1#1
          channel := BitVec.ofInt 4 i.channel
          value := BitVec.ofInt 7 i.value
          isRelease := if i.isRelease then 1#1 else 0#1 }
      history := s.history ++ [⟨i, m⟩] }

/-- The definition of `encode(cfg, is_release)`, every branch of it (40_encode section 1): the meanings of the four operations
refine it. Its CONTROL_CHANGE branch on release is the spec's decision D8. -/
def Obligations.MeaningsRefineEncode : Prop :=
  ∀ (cfg : ButtonConfig) (isRelease : Bool) (s : State), cfg.inRange = true →
    ∃ t m, exec (Instr.ofRequest cfg isRelease) s = .next t ∧
      t.history = s.history ++ [⟨Instr.ofRequest cfg isRelease, m⟩] ∧
      messageBytes m =
        (let base : Byte :=
          if cfg.function = .note ∧ isRelease = false then 0x90#8
          else if cfg.function = .note ∧ isRelease = true then 0x80#8
          else 0xB0#8
        if cfg.function = .note ∧ isRelease = false then
          [base + BitVec.ofInt 8 cfg.channel, BitVec.ofInt 8 cfg.value, 90#8]
        else [base + BitVec.ofInt 8 cfg.channel, BitVec.ofInt 8 cfg.value])

/-- "`status = base_status(function, release) | channel`": so `status[7:4]` is 0x9, 0x8 or 0xB and `status[3:0]` is the
channel. -/
def Obligations.StatusCarriesTypeAndChannel : Prop :=
  ∀ (cfg : ButtonConfig) (isRelease : Bool) (s : State), cfg.inRange = true →
    ∃ t m, exec (Instr.ofRequest cfg isRelease) s = .next t ∧
      t.history = s.history ++ [⟨Instr.ofRequest cfg isRelease, m⟩] ∧
      m.status = (if cfg.function = .note then (if isRelease then 0x80#8 else 0x90#8) else 0xB0#8) |||
        BitVec.ofInt 8 cfg.channel ∧
      m.status = (if cfg.function = .note then (if isRelease then 0x80#8 else 0x90#8) else 0xB0#8) +
        BitVec.ofInt 8 cfg.channel ∧
      messageType m.status =
        (if cfg.function = .note then (if isRelease then 0x8#4 else 0x9#4) else 0xB#4) ∧
      ((messageChannel m.status).toNat : Int) = cfg.channel

/-- "`data1[6:0] = cfg.value` and `data1[7] = 0`, for every operation." -/
def Obligations.DataOneIsTheValue : Prop :=
  ∀ (i : Instr) (s : State), i.wellFormed = true →
    ∃ t m, exec i s = .next t ∧ t.history = s.history ++ [⟨i, m⟩] ∧
      ((m.data1.extractLsb' 0 7).toNat : Int) = i.value ∧ m.data1.getLsbD 7 = false

/-- "data2 exists only in NOTE_ON, where it is 90 (0x5A) whatever `cfg` holds." -/
def Obligations.VelocityOnlyInNoteOn : Prop :=
  ∀ (i : Instr) (s : State), i.wellFormed = true →
    ∃ t m, exec i s = .next t ∧ t.history = s.history ++ [⟨i, m⟩] ∧
      (m.data2.isSome = true ↔ ∃ c v, i = .noteOn c v) ∧ ∀ d, m.data2 = some d → d = 90#8 ∧ d = 0x5A#8

/-- The one arithmetic operation: the sum of a base with a zero low nibble and a channel of at most 15 "is at most 0xBF, never
overflows 8 bits, never carries into `status[7:4]`, and equals `base | channel`". -/
def Obligations.ChannelAdditionNeverCarries : Prop :=
  ∀ (i : Instr) (s : State), i.wellFormed = true →
    ∃ t m, exec i s = .next t ∧ t.history = s.history ++ [⟨i, m⟩] ∧
      ∃ base : Byte, (base = 0x80#8 ∨ base = 0x90#8 ∨ base = 0xB0#8) ∧ base.extractLsb' 0 4 = 0#4 ∧
        m.status = base + BitVec.ofInt 8 i.channel ∧
        (m.status.toNat : Int) = (base.toNat : Int) + i.channel ∧ m.status.toNat ≤ 0xBF ∧
        m.status.extractLsb' 4 4 = base.extractLsb' 4 4 ∧ m.status = base ||| BitVec.ofInt 8 i.channel

/-- "Properties the source states, which every model must satisfy": the status nibbles on press, the lengths for NOTE, and
`data1 == cfg.value` in all cases. -/
def Obligations.SourcePropertiesHold : Prop :=
  ∀ (cfg : ButtonConfig) (s : State), cfg.inRange = true →
    ∃ press release,
      blockReturns (Instr.ofRequest cfg false) s = some press ∧
      blockReturns (Instr.ofRequest cfg true) s = some release ∧
      press.status &&& 0x0F#8 = BitVec.ofInt 8 cfg.channel ∧
      press.status &&& 0xF0#8 = (if cfg.function = .note then 0x90#8 else 0xB0#8) ∧
      (cfg.function = .note → messageLength press = 3 ∧ messageLength release = 2) ∧
      (press.data1.toNat : Int) = cfg.value ∧ (release.data1.toNat : Int) = cfg.value

/-- The properties that the spec derives from its definition of `encode` (40_encode section 3): the release nibbles, when a
message has 3 bytes, CC press and release alike, and no other two requests with one message. -/
def Obligations.MessagesIdentifyTheirRequests : Prop :=
  ∀ (cfg other : ButtonConfig) (d e : Bool) (s : State), cfg.inRange = true → other.inRange = true →
    ∃ m n,
      blockReturns (Instr.ofRequest cfg d) s = some m ∧ blockReturns (Instr.ofRequest other e) s = some n ∧
      (d = true → m.status &&& 0x0F#8 = BitVec.ofInt 8 cfg.channel ∧
        (m.status &&& 0xF0#8 = 0x80#8 ∨ m.status &&& 0xF0#8 = 0xB0#8)) ∧
      (messageLength m = 3 ↔ cfg.function = .note ∧ d = false) ∧
      (m = n ↔ cfg = other ∧ (d = e ∨ cfg.function = .controlChange))

/-- "`encode` is defined for all 2 × 16 × 128 × 2 = 8192 in-range requests, and for each it returns exactly one message": there
are that many in-range requests, and each, from every state, has exactly one returned message and neither fails nor refuses. -/
def Obligations.EncoderIsTotal : Prop :=
  Nat.card { request : ButtonConfig × Bool // request.1.inRange = true } = 8192 ∧
  ∀ (cfg : ButtonConfig) (isRelease : Bool) (s : State), cfg.inRange = true →
    ∃! m : MidiMessage, ∃ t, exec (Instr.ofRequest cfg isRelease) s = .next t ∧
      t.history = s.history ++ [⟨Instr.ofRequest cfg isRelease, m⟩]

/-- Every message is well formed, and on the output side only the status high nibbles 0x9, 0x8 and 0xB and the lengths 2 and 3
occur (30_encoding sections 4 and 7, which the spec marks as derived). -/
def Obligations.MessagesAreWellFormed : Prop :=
  ∀ (i : Instr) (s : State), i.wellFormed = true →
    ∃ m, blockReturns i s = some m ∧
      m.status.getLsbD 7 = true ∧ m.data1.getLsbD 7 = false ∧ (∀ d, m.data2 = some d → d.getLsbD 7 = false) ∧
      (messageType m.status = 0x9#4 ∨ messageType m.status = 0x8#4 ∨ messageType m.status = 0xB#4) ∧
      (messageLength m = 2 ∨ messageLength m = 3)

/-- "NOTE_ON gives 3 bytes, and NOTE_OFF, CC_PRESS and CC_RELEASE give 2." -/
def Obligations.LengthIsSetByTheOperation : Prop :=
  ∀ (c v : Int) (s : State), 0 ≤ c → c ≤ 15 → 0 ≤ v → v ≤ 127 →
    (blockReturns (.noteOn c v) s).map messageLength = some 3 ∧
    (blockReturns (.noteOff c v) s).map messageLength = some 2 ∧
    (blockReturns (.ccPress c v) s).map messageLength = some 2 ∧
    (blockReturns (.ccRelease c v) s).map messageLength = some 2

/-- A consumer of the block's byte stream finds every message again from the status bytes alone, and "A byte with bit 7 set
always starts a message" (30_encoding section 5, derived by the spec), in every state that meets the invariant. -/
def Obligations.StreamSplitsIntoItsMessages : Prop :=
  ∀ s : State, s.Inv →
    splitStream (streamBytes s.messages) = some s.messages ∧
    ∀ m ∈ s.messages, framedLength m.status = some (messageLength m) ∧
      (messageBytes m).map startsMessage = true :: List.replicate (messageLength m - 1) false

/-- The stream of a run has two bytes for each transaction and one more for each NOTE_ON (derived from 30_encoding section 5
and 70_reset section 5). -/
def Obligations.StreamLengthCountsNoteOns : Prop :=
  ∀ s : State, s.Inv →
    (streamBytes s.messages).length =
      2 * s.k + s.history.countP fun t => t.request.function == .note && !t.request.isRelease

/-- The CC direction is not visible in the bytes: words that differ only in `cmd[12]`, with `cmd[11]` = 1, return the same
message (70_reset section 3; the spec's decision D8). -/
def Obligations.CcDirectionIsInvisible : Prop :=
  ∀ (cmd : CmdWord) (s : State), cmd.getLsbD 11 = true →
    ∃ m, blockReturns (decode cmd) s = some m ∧ blockReturns (decode (cmd ^^^ 0x1000#13)) s = some m ∧
      decode cmd ≠ decode (cmd ^^^ 0x1000#13)

/-! ### The port view -/

/-- The port lines present the request that their packed word decodes to, and the output lines then carry its message:
`out_len` 2 or 3, `out_b2` 0x00 when `out_len` is 2. The port view is the spec's own (D3, D6). -/
def Obligations.PortLinesCarryTheMessage : Prop :=
  ∀ (s : State) (lines : PortInputs) (rest : List HostEvent), s.pending = .ports lines :: rest →
    ∃ t m, step s = .next t ∧ t.inputs = some lines ∧ t.pending = rest ∧
      t.history = s.history ++ [⟨decode lines.pack, m⟩] ∧
      t.outputs = some
        { len := if m.data2.isSome then 3#2 else 2#2, b0 := m.status, b1 := m.data1, b2 := m.data2.getD 0x00#8 }

/-- "`encode` of the present inputs; no stored value": in every state that meets the invariant the output lines show the last
message, and nothing before the first request (the model's choice, log entry 11). The port view is the spec's own (D3, D6). -/
def Obligations.OutputsShowTheLastMessage : Prop :=
  ∀ s : State, s.Inv →
    s.outputs = s.history.getLast?.map fun t =>
      { len := if messageLength t.message = 3 then 3#2 else 2#2
        b0 := t.message.status, b1 := t.message.data1, b2 := t.message.data2.getD 0x00#8 }

/-! ### Refusal, the router and the transport -/

/-- An out-of-range structured request is refused: no next state, no message, never a clamped, wrapped, masked or defaulted one.
The refusal is the spec's decision D11; which of two bad operands is named is the model's (log entry 4) and not stated. -/
def Obligations.OutOfRangeRequestIsRefused : Prop :=
  ∀ (cfg : ButtonConfig) (isRelease : Bool) (s : State) (rest : List HostEvent), cfg.inRange = false →
    s.pending = .request cfg isRelease :: rest →
    (step s = .refused (.channelOutOfRange cfg.channel) ∧ ¬ (0 ≤ cfg.channel ∧ cfg.channel ≤ 15)) ∨
    (step s = .refused (.valueOutOfRange cfg.value) ∧ ¬ (0 ≤ cfg.value ∧ cfg.value ≤ 127))

/-- "So for an index `i` with `not (0 <= i < len(ControllerConfigStore))` there is no transaction and no message, and nothing
reaches the transport": the event is only logged, in the model's form (log entry 13). -/
def Obligations.OutOfBoundsButtonIsDropped : Prop :=
  ∀ (s : State) (index : Int) (isRelease : Bool) (rest : List HostEvent),
    s.pending = buttonEvent index isRelease :: rest → ¬ (0 ≤ index ∧ index < s.store.length) →
    ∃ r, r.error = some .outOfBoundsButton ∧ r.logged = true ∧
      step s = .next { s with pending := rest, reports := s.reports ++ [r] }

/-- "if `0 <= i < len(ControllerConfigStore)`, call `encode(ControllerConfigStore[i], is_release=false)` and forward the result
to the external MIDI transport; otherwise drop", and for a release "identical but `is_release=true`". -/
def Obligations.RouterDispatchesButtons : Prop :=
  ∀ (s : State) (index : Int) (isRelease : Bool) (rest : List HostEvent), s.Inv →
    s.pending = buttonEvent index isRelease :: rest →
    (∀ cfg, 0 ≤ index → s.store[index.toNat]? = some cfg →
      ∃ t m, step s = .next t ∧ m = midiEncode cfg isRelease ∧
        t.history = s.history ++ [⟨Instr.ofRequest cfg isRelease, m⟩] ∧ t.sends = s.sends ++ [m]) ∧
    (¬ (0 ≤ index ∧ index < s.store.length) →
      ∃ t, step s = .next t ∧ t.history = s.history ∧ t.sends = s.sends)

/-- The whole effect of a dispatched button: whatever `send` answers, only its report differs; "engine state unchanged, next
event still processed". A false answer is a TransportSendFailure and is logged (60_exceptions section 2). That the answer, a true
one too, is kept as a report is the model's choice (log entry 13), and so is the counter `draws` that the free answer is drawn
with (log entry 7). -/
def Obligations.SendAnswerIsOnlyReported : Prop :=
  ∀ (s : State) (index : Int) (isRelease : Bool) (cfg : ButtonConfig) (rest : List HostEvent), s.Inv →
    s.pending = buttonEvent index isRelease :: rest → 0 ≤ index → s.store[index.toNat]? = some cfg →
    ∃ accepted : Bool, step s = .next { s with
      k := s.k + 1
      inputs := some (Instr.ofRequest cfg isRelease).ports
      history := s.history ++ [⟨Instr.ofRequest cfg isRelease, midiEncode cfg isRelease⟩]
      sends := s.sends ++ [midiEncode cfg isRelease]
      reports := s.reports ++ [.sendReturned accepted]
      draws := s.draws + 1
      pending := rest } ∧
    (accepted = false →
      (Report.sendReturned accepted).error = some .transportSendFailure ∧ (Report.sendReturned accepted).logged = true) ∧
    (accepted = true → (Report.sendReturned accepted).error = none ∧ (Report.sendReturned accepted).logged = false)

/-! ### Attach, detach and the configuration UI -/

/-- `on_attach`: "if no controller is currently active, opens the device, installs it as the active controller, and resizes
ControllerConfigStore to `button_count` default entries; returns true on success. If a controller is already active, or the open
fails, the store is left untouched and false is returned"; nothing is closed then, for a report that returns a Bool is no release
of a handle. The form of the reports is the model's (log entry 13), and so is that the outcome of opening the device comes with
the notification (log entry 6). -/
def Obligations.AttachFollowsItsContract : Prop :=
  ∀ (s : State) (d : DeviceId) (n : Nat) (opened : Option Handle) (rest : List HostEvent),
    s.pending = .attach d n opened :: rest →
    (∀ h, s.active = none → opened = some h → ∃ r, r.returned = some true ∧
      step s = .next { s with
        active := some { handle := h, deviceId := d, buttonCount := n }
        store := List.replicate n { function := .note, channel := 0, value := 0 }
        reports := s.reports ++ [r]
        pending := rest }) ∧
    (s.active ≠ none ∨ opened = none → ∃ r, r.returned = some false ∧
      step s = .next { s with reports := s.reports ++ [r], pending := rest })

/-- `on_detach`: "if `device_id` matches the active controller's identifier, releases the handle, sets active-controller state to
"none", and clears ControllerConfigStore to empty. Detach notifications for non-matching or absent devices are no-ops." That the
release of the handle is kept as a report is the model's choice (log entry 13). -/
def Obligations.DetachFollowsItsContract : Prop :=
  ∀ (s : State) (d : DeviceId) (rest : List HostEvent), s.pending = .detach d :: rest →
    (∀ a, s.active = some a → a.deviceId = d →
      step s = .next { s with
        active := none
        store := []
        reports := s.reports ++ [.handleReleased a.handle]
        pending := rest }) ∧
    ((∀ a, s.active = some a → a.deviceId ≠ d) → step s = .next { s with pending := rest })

/-- The lifecycle machine: initial state NO_CONTROLLER, "NO_CONTROLLER → ACTIVE on successful `on_attach`. ACTIVE →
NO_CONTROLLER on matching `on_detach`", every other event leaves it, in ACTIVE "any attach is ignored, whether or not it names
the same device", and no state is terminal: every attach and detach is processed. -/
def Obligations.LifecycleFollowsItsStateMachine : Prop :=
  State.reset.lifecycle = .noController ∧
  (∀ s t : State, step s = .next t →
    (s.lifecycle = .noController →
      (t.lifecycle = .active ↔ ∃ d n h rest, s.pending = .attach d n (some h) :: rest)) ∧
    (∀ a, s.active = some a →
      (t.lifecycle = .noController ↔ ∃ rest, s.pending = .detach a.deviceId :: rest) ∧
      (t.lifecycle = .active → t.active = some a) ∧
      ((∃ d n o rest, s.pending = .attach d n o :: rest) → t.active = some a ∧ t.store = s.store))) ∧
  (∀ (s : State) (d : DeviceId) (n : Nat) (o : Option Handle) (rest : List HostEvent),
    s.pending = .attach d n o :: rest ∨ s.pending = .detach d :: rest → ∃ t, step s = .next t)

/-- "created (all-default entries) when a controller attaches; cleared to empty when that controller detaches. Entries are
mutated only by the configuration UI (external) between frames; read-only from the engine's perspective during event
handling." -/
def Obligations.StoreChangesOnlyByItsLifecycle : Prop :=
  ∀ s t : State, step s = .next t →
    (∀ d n h rest, s.active = none → s.pending = .attach d n (some h) :: rest →
      t.store = List.replicate n ButtonConfig.default) ∧
    (∀ a rest, s.active = some a → s.pending = .detach a.deviceId :: rest → t.store = []) ∧
    (t.store ≠ s.store →
      (∃ d n h rest, s.pending = .attach d n (some h) :: rest ∧ s.active = none) ∨
      (∃ a rest, s.pending = .detach a.deviceId :: rest ∧ s.active = some a) ∨
      (∃ index cfg entry rest, s.pending = .configWrite index cfg :: rest ∧ 0 ≤ index ∧ index < s.store.length ∧
        t.store = s.store.set index.toNat entry))

/-- A configuration write stores each field saturated to its range: the reading of "clamped" is the spec's decision D23. A
write outside the store is refused, the model's choice (log entry 9). -/
def Obligations.ConfigurationWriteClamps : Prop :=
  ∀ (s : State) (index : Int) (f : ButtonFunction) (c v : Int) (rest : List HostEvent),
    s.pending = .configWrite index ⟨f, c, v⟩ :: rest →
    (0 ≤ index ∧ index < s.store.length →
      step s = .next { s with
        store := s.store.set index.toNat ⟨f, max 0 (min c 15), max 0 (min v 127)⟩
        pending := rest }) ∧
    (¬ (0 ≤ index ∧ index < s.store.length) → step s = .refused (.noSuchEntry index))

/-- A transaction "sees every configuration write completed before event `k`'s dispatch began": the next dispatch of the written
button encodes the written entry, and every other entry is as before (the spec's decision D16). -/
def Obligations.NextDispatchSeesTheWrite : Prop :=
  ∀ (s : State) (index : Int) (cfg : ButtonConfig) (isRelease : Bool) (rest : List HostEvent),
    0 ≤ index → index < s.store.length → cfg.inRange = true →
    s.pending = .configWrite index cfg :: buttonEvent index isRelease :: rest →
    ∃ t u, step s = .next t ∧ t.history = s.history ∧ step t = .next u ∧
      u.history = s.history ++ [⟨Instr.ofRequest cfg isRelease, midiEncode cfg isRelease⟩] ∧
      ∀ other, other ≠ index → u.storeEntry other = s.storeEntry other

/-- "After `on_attach(d, 8)`, `len(ControllerConfigStore) == 8` and every entry equals default": an unconfigured button sends
`[0x90, 0x00, 0x5A]` on press and `[0x80, 0x00]` on release (70_reset section 1, derived by the spec). -/
def Obligations.UnconfiguredButtonsSendTheDefault : Prop :=
  ∀ (s : State) (d : DeviceId) (n : Nat) (h : Handle) (index : Int) (isRelease : Bool) (rest : List HostEvent),
    s.active = none → 0 ≤ index → index < n →
    s.pending = .attach d n (some h) :: buttonEvent index isRelease :: rest →
    ∃ t u m, step s = .next t ∧ t.store.length = n ∧ (∀ cfg ∈ t.store, cfg = ⟨.note, 0, 0⟩) ∧
      step t = .next u ∧ u.sends = s.sends ++ [m] ∧
      messageBytes m = if isRelease then [0x80#8, 0x00#8] else [0x90#8, 0x00#8, 0x5A#8]

/-- After the matching detach a press or release of any index yields no message, so a note turned on before it gets no note-off
(70_reset section 3, derived by the spec). -/
def Obligations.DetachedButtonsAreDropped : Prop :=
  ∀ (s : State) (a : ActiveController) (index : Int) (isRelease : Bool) (rest : List HostEvent),
    s.active = some a → s.pending = .detach a.deviceId :: buttonEvent index isRelease :: rest →
    ∃ t u, step s = .next t ∧ t.store = [] ∧ step t = .next u ∧
      u.history = s.history ∧ u.sends = s.sends ∧ u.k = s.k

/-- "every press or release before the first successful attach is dropped by the router, and the block performs no transaction"
(70_reset section 1, derived by the spec): in every state that meets the invariant and has no active controller, after a detach
as well as before the first attach, a button notification leaves the observation, the sends, the index, the lines, the controller
and the store as they are. Process start is such a state, whatever has been presented. -/
def Obligations.ButtonsBeforeAttachAreDropped : Prop :=
  (∀ (s : State) (index : Int) (isRelease : Bool) (rest : List HostEvent), s.Inv → s.active = none →
    s.pending = buttonEvent index isRelease :: rest →
    ∃ t, step s = .next t ∧ t.history = s.history ∧ t.sends = s.sends ∧ t.k = s.k ∧ t.inputs = s.inputs ∧
      t.store = s.store ∧ t.active = none ∧ t.pending = rest) ∧
  (∀ presented : List HostEvent, ({ State.reset with pending := presented } : State).Inv ∧
    ({ State.reset with pending := presented } : State).active = none)

/-! ### The step and the run -/

/-- "notifications are processed strictly in arrival order, one at a time; no reordering or batching": a step takes exactly the
oldest event; an event that brings a request yields exactly its one transaction and, from a button, its one `send`; every other
event, a dropped one among them, yields none. That the events wait in a queue is the model's (log entry 2), and so is that a
request presented directly, by no button, is not sent (log entry 19). -/
def Obligations.EventsAreProcessedInArrivalOrder : Prop :=
  ∀ (s t : State) (e : HostEvent) (rest : List HostEvent), s.pending = e :: rest → step s = .next t →
    t.pending = rest ∧
    t.history = s.history ++ ((requestOf s e).map transactionOf).toList ∧
    ((∃ index isRelease, e = buttonEvent index isRelease) →
      t.sends = s.sends ++ ((requestOf s e).map fun i => (transactionOf i).message).toList) ∧
    ((∀ index isRelease, e ≠ buttonEvent index isRelease) → t.sends = s.sends)

/-- "The output of a transaction depends only on that transaction's inputs": one event over one store adds the same transactions
to two histories that otherwise share nothing, and one operation drives the same outputs (10_state section 4, derived by the
spec). -/
def Obligations.BlockKeepsNoHiddenState : Prop :=
  (∀ (s₁ s₂ t₁ t₂ : State) (e : HostEvent) (rest₁ rest₂ : List HostEvent),
    s₁.pending = e :: rest₁ → s₂.pending = e :: rest₂ → s₁.store = s₂.store →
    step s₁ = .next t₁ → step s₂ = .next t₂ →
    ∃ new, t₁.history = s₁.history ++ new ∧ t₂.history = s₂.history ++ new) ∧
  (∀ (i : Instr) (s₁ s₂ t₁ t₂ : State), exec i s₁ = .next t₁ → exec i s₂ = .next t₂ →
    t₁.outputs = t₂.outputs ∧ blockReturns i s₁ = blockReturns i s₂)

/-- Attach, detach, a configuration write and the port calls present nothing to the block: no transaction, no change of its
lines, no `send` (60_exceptions section 4, host table, the spec's decision D1); and the port calls complete and leave the
controller and the store. -/
def Obligations.HostCallsPresentNothing : Prop :=
  (∀ (s t : State) (e : HostEvent) (rest : List HostEvent), s.pending = e :: rest → step s = .next t →
    ((∃ d n o, e = .attach d n o) ∨ (∃ d, e = .detach d) ∨ (∃ index cfg, e = .configWrite index cfg) ∨
      e = .listPorts ∨ (∃ index, e = .openPort index) ∨ e = .closePort) →
    t.k = s.k ∧ t.inputs = s.inputs ∧ t.outputs = s.outputs ∧ t.history = s.history ∧ t.sends = s.sends) ∧
  (∀ (s : State) (e : HostEvent) (rest : List HostEvent), s.pending = e :: rest →
    (e = .listPorts ∨ (∃ index, e = .openPort index) ∨ e = .closePort) →
    ∃ t, step s = .next t ∧ t.active = s.active ∧ t.store = s.store)

/-- A step runs exactly the operation presented: by its command word, by the port lines, or as a structured request, with the
event taken from the queue. That requests wait in a queue is the model's (log entry 2). -/
def Obligations.StepRunsThePresentedOperation : Prop :=
  ∀ (s : State) (rest : List HostEvent),
    (∀ word, word < 8192 → s.pending = .command word :: rest →
      step s = exec (decode (BitVec.ofNat 13 word)) { s with pending := rest }) ∧
    (∀ i cmd, encode i = some cmd → s.pending = .command cmd.toNat :: rest →
      step s = exec i { s with pending := rest }) ∧
    (∀ lines, s.pending = .ports lines :: rest → step s = exec (decode lines.pack) { s with pending := rest }) ∧
    (∀ cfg d, s.pending = .request cfg d :: rest →
      step s = exec (Instr.ofRequest cfg d) { s with pending := rest })

/-- With nothing presented the step keeps the state: the MODEL'S choice (log entry 2), after "The block has no stop, halt or done
state of its own". -/
def Obligations.IdleStepKeepsTheState : Prop :=
  ∀ s : State, s.pending = [] → step s = .next s

/-- Process start (10_state section 6): NO_CONTROLLER, no controller, an empty store, index 0. That nothing is presented then is
the model's choice: no event in the queue (log entry 2), nothing on the lines (log entry 11), and no report (log entry 13). -/
def Obligations.ResetIsProcessStart : Prop :=
  State.reset.lifecycle = .noController ∧ State.reset.active = none ∧ State.reset.store = [] ∧
  State.reset.k = 0 ∧ State.reset.history = [] ∧ State.reset.sends = [] ∧ State.reset.reports = [] ∧
  State.reset.pending = [] ∧ State.reset.inputs = none ∧ State.reset.outputs = none

/-- Process start meets the machine's invariant. -/
def Obligations.InvariantHoldsAtReset : Prop := State.reset.Inv

/-- Every step keeps the invariant: the store in range and of the reported size, the index counting the transactions, every
recorded message the one its request encodes to, the lines those of the last request, the sends taken from the messages in
order. -/
def Obligations.StepKeepsTheInvariant : Prop :=
  ∀ s t : State, s.Inv → step s = .next t → t.Inv

/-- Runs of any length from any state that meets the invariant keep it, never shorten the observation, and only ever add
well-formed messages. -/
def Obligations.RunsKeepTheInvariant : Prop :=
  ∀ (n : Nat) (s t : State), s.Inv → runFrom n s = .next t →
    t.Inv ∧ s.messages <+: t.messages ∧ ∀ m ∈ t.messages, messageWellFormed m = true

/-- A run over button notifications is safe (it completes, with well-formed messages only), and "the ordered list of messages
the block returned, one per transaction", equals "the ordered list of `send` calls the router makes": one for each in-bounds
event, in arrival order, with the store as it was. The observation is the spec's decision D21, the index its D22. -/
def Obligations.ButtonRunSendsItsMessages : Prop :=
  ∀ (events : List (Int × Bool)) (s : State), s.Inv →
    s.pending = events.map (fun e => buttonEvent e.1 e.2) →
    SafeRun events.length s ∧ ∃ t new, runFrom events.length s = .next t ∧
      new = events.filterMap (fun e => (s.storeEntry e.1).map fun cfg =>
        (⟨Instr.ofRequest cfg e.2, midiEncode cfg e.2⟩ : Transaction)) ∧
      t.history = s.history ++ new ∧ t.sends = s.sends ++ new.map Transaction.message ∧
      t.k = s.k + new.length ∧ t.store = s.store ∧ t.active = s.active ∧ t.pending = []

/-- The environment's errors (60_exceptions section 2): a failed attach open and a failed port open are DeviceUnavailable, each
returned to its caller as false and not retried, and a successful open is no error; nothing else of the engine depends on the
answer of `open_port`. The form of the reports is the model's (log entry 13); the answers come as log entries 6 and 8 say. -/
def Obligations.FailedOpensAreDeviceUnavailable : Prop :=
  (∀ (s : State) (d : DeviceId) (n : Nat) (rest : List HostEvent), s.active = none →
    s.pending = .attach d n none :: rest →
    ∃ r : Report, r.returned = some false ∧ r.error = some .deviceUnavailable ∧
      step s = .next { s with reports := s.reports ++ [r], pending := rest }) ∧
  (∀ (s : State) (d : DeviceId) (n : Nat) (h : Handle) (rest : List HostEvent), s.active = none →
    s.pending = .attach d n (some h) :: rest →
    ∃ t r, step s = .next t ∧ t.reports = s.reports ++ [r] ∧ r.returned = some true ∧ r.error = none) ∧
  (∀ (s : State) (index : Nat) (rest : List HostEvent), s.pending = .openPort index :: rest →
    ∃ (opened : Bool) (r : Report), r.returned = some opened ∧
      r.error = (if opened then none else some .deviceUnavailable) ∧
      step s = .next { s with reports := s.reports ++ [r], draws := s.draws + 1, pending := rest })

/-- Presenting the events of a stream one at a time, each answered before the next arrives, and presenting the first `n` of them
all at once give the same outcome, a refusal among them: the queue (log entry 2) only keeps the arrival order. -/
def Obligations.EventRunsAgreeWithQueuedRuns : Prop :=
  ∀ (events : Nat → HostEvent) (n : Nat) (s : State), s.pending = [] →
    runEvents events n s = runFrom n { s with pending := (List.range n).map events }

/-- An infinite run over any stream of events keeps the invariant in every state, makes exactly the transaction of each event, if it
brings one, in arrival order, and its observation only grows: at each place of the list of messages, which is finite where only
finitely many events bring a request, there is at most one message. The observation is the spec's decision D21; the form of the
run is the model's (log entry 22). -/
def Obligations.InfiniteRunsHaveOneObservation : Prop :=
  ∀ (events : Nat → HostEvent) (states : Nat → State), InfiniteRun events states → (states 0).Inv →
    (states 0).pending = [] →
    (∀ n, (states n).Inv ∧ (states n).pending = [] ∧
      (states (n + 1)).history = (states n).history ++ ((requestOf (states n) (events n)).map transactionOf).toList) ∧
    (∀ n j, n ≤ j → (states n).messages <+: (states j).messages) ∧
    ∀ j m m', ObservedAt states j m → ObservedAt states j m' → m = m'

/-- Every endless stream of command words has an infinite run from every state with nothing pending, and its observation is the
message of each word in its turn; the index "has no width limit and never wraps" (the spec's decision D22). -/
def Obligations.WordStreamsRunForever : Prop :=
  ∀ (words : Nat → CmdWord) (s : State), s.Inv → s.pending = [] →
    ∃ states : Nat → State, states 0 = s ∧ InfiniteRun (fun n => .command (words n).toNat) states ∧
      ∀ n, (states n).k = s.k + n ∧
        ObservedAt states (s.k + n) (midiEncode (decode (words n)).config (decode (words n)).isRelease)

/-- Every endless stream of button notifications has an infinite run from every state that meets the invariant with nothing
pending, and at each point of it the messages returned are the `send` calls made: one for each in-bounds notification so far, in
arrival order (the spec's decision D21). -/
def Obligations.ButtonStreamsRunForever : Prop :=
  ∀ (buttons : Nat → Int × Bool) (s : State), s.Inv → s.pending = [] →
    ∃ states : Nat → State, states 0 = s ∧ InfiniteRun (fun n => buttonEvent (buttons n).1 (buttons n).2) states ∧
      ∀ n, ∃ new, new = (List.range n).filterMap (fun j =>
          (s.storeEntry (buttons j).1).map fun cfg => midiEncode cfg (buttons j).2) ∧
        (states n).messages = s.messages ++ new ∧ (states n).sends = s.sends ++ new ∧
        (states n).k = s.k + new.length ∧ (states n).store = s.store
end

