-- ==== Sys2Proof/Laws/Decode.lean ====
section
/-! SUPPORT. Facts about ranges, fields, packing and decoding. -/

namespace Sys2Proof

/-! ### Ranges -/

theorem channelInRange_iff (c : Int) : channelInRange c = true ↔ 0 ≤ c ∧ c ≤ 15 :=
  decide_eq_true_iff

theorem valueInRange_iff (v : Int) : valueInRange v = true ↔ 0 ≤ v ∧ v ≤ 127 :=
  decide_eq_true_iff

theorem ButtonConfig.inRange_iff (cfg : ButtonConfig) :
    cfg.inRange = true ↔ (0 ≤ cfg.channel ∧ cfg.channel ≤ 15) ∧ 0 ≤ cfg.value ∧ cfg.value ≤ 127 := by
  simp [ButtonConfig.inRange, channelInRange_iff, valueInRange_iff]

theorem ButtonConfig.default_inRange : ButtonConfig.default.inRange = true := by decide

theorem Instr.wellFormed_eq (i : Instr) : i.wellFormed = (channelInRange i.channel && valueInRange i.value) := by
  cases i <;> rfl

theorem Instr.wellFormed_iff (i : Instr) :
    i.wellFormed = true ↔ (0 ≤ i.channel ∧ i.channel ≤ 15) ∧ 0 ≤ i.value ∧ i.value ≤ 127 := by
  simp [Instr.wellFormed_eq, channelInRange_iff, valueInRange_iff]

/-! ### The fields of a selected operation -/

@[simp] theorem Instr.ofRequest_channel (cfg : ButtonConfig) (d : Bool) : (Instr.ofRequest cfg d).channel = cfg.channel := by
  rcases cfg with ⟨_ | _, _, _⟩ <;> cases d <;> rfl

@[simp] theorem Instr.ofRequest_value (cfg : ButtonConfig) (d : Bool) : (Instr.ofRequest cfg d).value = cfg.value := by
  rcases cfg with ⟨_ | _, _, _⟩ <;> cases d <;> rfl

@[simp] theorem Instr.ofRequest_function (cfg : ButtonConfig) (d : Bool) :
    (Instr.ofRequest cfg d).function = cfg.function := by
  rcases cfg with ⟨_ | _, _, _⟩ <;> cases d <;> rfl

@[simp] theorem Instr.ofRequest_isRelease (cfg : ButtonConfig) (d : Bool) : (Instr.ofRequest cfg d).isRelease = d := by
  rcases cfg with ⟨_ | _, _, _⟩ <;> cases d <;> rfl

@[simp] theorem Instr.ofRequest_config (cfg : ButtonConfig) (d : Bool) : (Instr.ofRequest cfg d).config = cfg := by
  simp [Instr.config]

@[simp] theorem Instr.ofRequest_self (i : Instr) : Instr.ofRequest i.config i.isRelease = i := by
  cases i <;> rfl

@[simp] theorem Instr.ofRequest_wellFormed (cfg : ButtonConfig) (d : Bool) :
    (Instr.ofRequest cfg d).wellFormed = cfg.inRange := by
  simp [Instr.wellFormed_eq, ButtonConfig.inRange]

/-! ### Bits of fields -/

@[simp] theorem functionOfBit_bitOfFunction (f : ButtonFunction) : functionOfBit (bitOfFunction f) = f := by
  cases f <;> rfl

@[simp] theorem bitOfFunction_functionOfBit (b : BitVec 1) : bitOfFunction (functionOfBit b) = b := by
  revert b; decide

theorem channelBits_toNat {c : Int} (h0 : 0 ≤ c) (h1 : c ≤ 15) : ((channelBits c).toNat : Int) = c := by
  simp [channelBits, BitVec.toNat_ofInt]; omega

theorem valueBits_toNat {v : Int} (h0 : 0 ≤ v) (h1 : v ≤ 127) : ((valueBits v).toNat : Int) = v := by
  simp [valueBits, BitVec.toNat_ofInt]; omega

@[simp] theorem channelBits_of_toNat (c : BitVec 4) : channelBits (c.toNat : Int) = c := by
  simp [channelBits]

@[simp] theorem valueBits_of_toNat (v : BitVec 7) : valueBits (v.toNat : Int) = v := by
  simp [valueBits]

@[simp] theorem ofBool_beq_one (d : Bool) : (BitVec.ofBool d == 1#1) = d := by cases d <;> rfl

@[simp] theorem ofBool_of_beq_one (b : BitVec 1) : BitVec.ofBool (b == 1#1) = b := by revert b; decide

/-! ### Port lines and operations -/

/-- Every setting of the port lines presents an in-range operation (10_state R24). -/
theorem PortInputs.instr_wellFormed (p : PortInputs) : p.instr.wellFormed = true := by
  have hc := p.channel.isLt
  have hv := p.value.isLt
  simp only [PortInputs.instr, Instr.ofFields, Instr.ofRequest_wellFormed, ButtonConfig.inRange_iff]
  omega

@[simp] theorem PortInputs.instr_ports (p : PortInputs) : p.instr.ports = p := by
  simp [PortInputs.instr, Instr.ofFields, Instr.ports]

theorem Instr.ports_instr {i : Instr} (h : i.wellFormed = true) : i.ports.instr = i := by
  obtain ⟨⟨hc0, hc1⟩, hv0, hv1⟩ := (Instr.wellFormed_iff i).1 h
  simp only [PortInputs.instr, Instr.ofFields, Instr.ports, functionOfBit_bitOfFunction, ofBool_beq_one,
    channelBits_toNat hc0 hc1, valueBits_toNat hv0 hv1]
  exact Instr.ofRequest_self i

/-! ### Packing and decoding, as arithmetic on the word's number -/

theorem packFields_toNat (r f : BitVec 1) (c : BitVec 4) (v : BitVec 7) :
    (packFields r f c v).toNat = r.toNat * 4096 + f.toNat * 2048 + c.toNat * 128 + v.toNat := by
  have hf := f.isLt
  have hc := c.isLt
  have hv := v.isLt
  simp only [packFields, BitVec.toNat_append]
  rw [← Nat.shiftLeft_add_eq_or_of_lt hf, ← Nat.shiftLeft_add_eq_or_of_lt hc, ← Nat.shiftLeft_add_eq_or_of_lt hv]
  simp only [Nat.shiftLeft_eq]
  omega

theorem fieldRelease_toNat (w : CmdWord) : (fieldRelease w).toNat = w.toNat / 4096 % 2 := by
  simp [fieldRelease, Nat.shiftRight_eq_div_pow]

theorem fieldFunction_toNat (w : CmdWord) : (fieldFunction w).toNat = w.toNat / 2048 % 2 := by
  simp [fieldFunction, Nat.shiftRight_eq_div_pow]

theorem fieldChannel_toNat (w : CmdWord) : (fieldChannel w).toNat = w.toNat / 128 % 16 := by
  simp [fieldChannel, Nat.shiftRight_eq_div_pow]

theorem fieldValue_toNat (w : CmdWord) : (fieldValue w).toNat = w.toNat % 128 := by
  simp [fieldValue]

theorem fieldRelease_pack (r f : BitVec 1) (c : BitVec 4) (v : BitVec 7) : fieldRelease (packFields r f c v) = r := by
  apply BitVec.eq_of_toNat_eq
  have hr := r.isLt; have hf := f.isLt; have hc := c.isLt; have hv := v.isLt
  rw [fieldRelease_toNat, packFields_toNat]; omega

theorem fieldFunction_pack (r f : BitVec 1) (c : BitVec 4) (v : BitVec 7) : fieldFunction (packFields r f c v) = f := by
  apply BitVec.eq_of_toNat_eq
  have hf := f.isLt; have hc := c.isLt; have hv := v.isLt
  rw [fieldFunction_toNat, packFields_toNat]; omega

theorem fieldChannel_pack (r f : BitVec 1) (c : BitVec 4) (v : BitVec 7) : fieldChannel (packFields r f c v) = c := by
  apply BitVec.eq_of_toNat_eq
  have hc := c.isLt; have hv := v.isLt
  rw [fieldChannel_toNat, packFields_toNat]; omega

theorem fieldValue_pack (r f : BitVec 1) (c : BitVec 4) (v : BitVec 7) : fieldValue (packFields r f c v) = v := by
  apply BitVec.eq_of_toNat_eq
  have hv := v.isLt
  rw [fieldValue_toNat, packFields_toNat]; omega

/-- Packing the four fields of a word gives the word back. -/
theorem packFields_fields (w : CmdWord) :
    packFields (fieldRelease w) (fieldFunction w) (fieldChannel w) (fieldValue w) = w := by
  apply BitVec.eq_of_toNat_eq
  have hw := w.isLt
  rw [packFields_toNat, fieldRelease_toNat, fieldFunction_toNat, fieldChannel_toNat, fieldValue_toNat]; omega

/-- Driving the port lines is presenting their packed word. -/
@[simp] theorem PortInputs.decode_pack (p : PortInputs) : decode p.pack = p.instr := by
  simp [decode, PortInputs.pack, PortInputs.instr, fieldRelease_pack, fieldFunction_pack, fieldChannel_pack,
    fieldValue_pack]

/-- The port lines a command word stands for. -/
theorem decode_eq_instr (w : CmdWord) :
    decode w = (PortInputs.mk (fieldFunction w) (fieldChannel w) (fieldValue w) (fieldRelease w)).instr := rfl

/-- Decoding gives in-range operands (30_encoding R57). -/
theorem decode_wellFormed (w : CmdWord) : (decode w).wellFormed = true := by
  rw [decode_eq_instr]; exact PortInputs.instr_wellFormed _

theorem decodeNumber_of_lt {n : Nat} (h : n < 8192) : decodeNumber n = .ok (decode (BitVec.ofNat 13 n)) := if_pos h

theorem decodeNumber_of_ge {n : Nat} (h : ¬ n < 8192) : decodeNumber n = .error (.notACommandWord n) := if_neg h

/-! ### The opcode bits -/
/-- Masking a word with the opcode mask keeps its two opcode bits (30_encoding R55). -/
theorem and_opcodeMask (cmd : CmdWord) :
    cmd &&& 0x1800#13 = packFields (fieldRelease cmd) (fieldFunction cmd) 0#4 0#7 := by
  rw [← packFields_fields (cmd &&& 0x1800#13)]
  have hr : fieldRelease (cmd &&& 0x1800#13) = fieldRelease cmd &&& 1#1 := BitVec.extractLsb'_and
  have hf : fieldFunction (cmd &&& 0x1800#13) = fieldFunction cmd &&& 1#1 := BitVec.extractLsb'_and
  have hc : fieldChannel (cmd &&& 0x1800#13) = fieldChannel cmd &&& 0#4 := BitVec.extractLsb'_and
  have hv : fieldValue (cmd &&& 0x1800#13) = fieldValue cmd &&& 0#7 := BitVec.extractLsb'_and
  have one : ∀ b : BitVec 1, b &&& 1#1 = b := by decide
  rw [hr, hf, hc, hv, one, one, BitVec.and_zero, BitVec.and_zero]

/-- Flipping `cmd[12]` flips the direction and nothing else. -/
theorem decode_flipRelease (cmd : CmdWord) :
    decode (cmd ^^^ 0x1000#13) =
      Instr.ofFields (fieldRelease cmd ^^^ 1#1) (fieldFunction cmd) (fieldChannel cmd) (fieldValue cmd) := by
  have hr : fieldRelease (cmd ^^^ 0x1000#13) = fieldRelease cmd ^^^ 1#1 := BitVec.extractLsb'_xor
  have hf : fieldFunction (cmd ^^^ 0x1000#13) = fieldFunction cmd ^^^ 0#1 := BitVec.extractLsb'_xor
  have hc : fieldChannel (cmd ^^^ 0x1000#13) = fieldChannel cmd ^^^ 0#4 := BitVec.extractLsb'_xor
  have hv : fieldValue (cmd ^^^ 0x1000#13) = fieldValue cmd ^^^ 0#7 := BitVec.extractLsb'_xor
  rw [decode, hr, hf, hc, hv, BitVec.xor_zero, BitVec.xor_zero, BitVec.xor_zero]

theorem fieldRelease_eq_one_iff (cmd : CmdWord) : fieldRelease cmd = 1#1 ↔ cmd.getLsbD 12 = true := by
  rw [← BitVec.toNat_inj, fieldRelease_toNat, BitVec.getLsbD, Nat.testBit_eq_decide_div_mod_eq]
  simp

theorem fieldFunction_eq_one_iff (cmd : CmdWord) : fieldFunction cmd = 1#1 ↔ cmd.getLsbD 11 = true := by
  rw [← BitVec.toNat_inj, fieldFunction_toNat, BitVec.getLsbD, Nat.testBit_eq_decide_div_mod_eq]
  simp

theorem bit_cases (b : BitVec 1) : b = 0#1 ∨ b = 1#1 := by revert b; decide

theorem functionOfBit_eq_controlChange_iff (b : BitVec 1) : functionOfBit b = .controlChange ↔ b = 1#1 := by
  rcases bit_cases b with rfl | rfl <;> decide
/-! ### Encoding -/

/-- The configuration of a well-formed operation is in range. -/
theorem Instr.config_inRange {i : Instr} (h : i.wellFormed = true) : i.config.inRange = true :=
  (ButtonConfig.inRange_iff _).2 ((Instr.wellFormed_iff i).1 h)

/-- A well-formed operation has the word of its port lines. -/
theorem encode_of_wellFormed {i : Instr} (h : i.wellFormed = true) : encode i = some i.ports.pack := if_pos h

/-- The number of a well-formed operation's word. -/
theorem Instr.ports_pack_toNat {i : Instr} (h : i.wellFormed = true) :
    (i.ports.pack.toNat : Int) = (if i.isRelease then 4096 else 0) +
      (if i.function = .controlChange then 2048 else 0) + i.channel * 128 + i.value := by
  obtain ⟨⟨hc0, hc1⟩, hv0, hv1⟩ := (Instr.wellFormed_iff i).1 h
  have := channelBits_toNat hc0 hc1
  have := valueBits_toNat hv0 hv1
  simp only [PortInputs.pack, packFields_toNat, Instr.ports]
  cases i <;> simp_all [Instr.function, Instr.isRelease, bitOfFunction]

end Sys2Proof
end

