-- ==== Sys2Proof/Laws/Operands.lean ====
section
/-! SUPPORT. Facts about the bytes of a message. -/

namespace Sys2Proof.Machine

/-- The three base statuses leave room for the channel: the status byte is the base plus the channel, as numbers. -/
theorem statusByte_toNat {base : Byte} (hb : base = baseNoteOn ∨ base = baseNoteOff ∨ base = baseCc) {c : Int}
    (h0 : 0 ≤ c) (h1 : c ≤ 15) : ((statusByte base c).toNat : Int) = base.toNat + c := by
  have hc := channelBits_toNat h0 h1
  rcases hb with rfl | rfl | rfl <;>
    simp [statusByte, zext8, baseNoteOn, baseNoteOff, baseCc, BitVec.toNat_add] <;> omega

/-- data1 is the value, as numbers (40_encode R69). -/
theorem dataByte_toNat {v : Int} (h0 : 0 ≤ v) (h1 : v ≤ 127) : ((dataByte v).toNat : Int) = v := by
  have hv := valueBits_toNat h0 h1
  simp [dataByte, zext8]; omega

theorem baseStatus_cases (f : ButtonFunction) (d : Bool) :
    baseStatus f d = baseNoteOn ∨ baseStatus f d = baseNoteOff ∨ baseStatus f d = baseCc := by
  cases f <;> cases d <;> simp [baseStatus]

theorem messageType_toNat (b : Byte) : (messageType b).toNat = b.toNat / 16 := by
  have hb := b.isLt
  simp [messageType, Nat.shiftRight_eq_div_pow]; omega

theorem messageChannel_toNat (b : Byte) : (messageChannel b).toNat = b.toNat % 16 := by
  simp [messageChannel]

theorem startsMessage_iff (b : Byte) : startsMessage b = true ↔ 128 ≤ b.toNat := by
  have hb := b.isLt
  simp only [startsMessage, BitVec.getLsbD, Nat.testBit_eq_decide_div_mod_eq, decide_eq_true_iff]
  omega

theorem startsMessage_eq_false_iff (b : Byte) : startsMessage b = false ↔ b.toNat < 128 := by
  rw [← Bool.not_eq_true, startsMessage_iff]; omega

/-- The status byte of a message of the common definition, as a number. -/
theorem midiEncode_status_toNat {cfg : ButtonConfig} (h : cfg.inRange = true) (d : Bool) :
    ((midiEncode cfg d).status.toNat : Int) = (baseStatus cfg.function d).toNat + cfg.channel := by
  obtain ⟨⟨h0, h1⟩, -⟩ := (ButtonConfig.inRange_iff cfg).1 h
  exact statusByte_toNat (baseStatus_cases _ _) h0 h1

/-- data1 of a message of the common definition, as a number. -/
theorem midiEncode_data1_toNat {cfg : ButtonConfig} (h : cfg.inRange = true) (d : Bool) :
    ((midiEncode cfg d).data1.toNat : Int) = cfg.value := by
  obtain ⟨-, h0, h1⟩ := (ButtonConfig.inRange_iff cfg).1 h
  exact dataByte_toNat h0 h1

/-- The port view agrees with the common definition (10_state R24): what the lines give is the message's port form. -/
theorem portOutputs_ports (i : Instr) : portOutputs i.ports = messageOnPorts (midiEncode i.config i.isRelease) := by
  cases i <;> rfl

/-! ### Bytes as numbers and as nibbles -/

/-- A byte is the byte of its number. -/
theorem byte_eq_ofInt {b : Byte} {n : Int} (h : (b.toNat : Int) = n) : b = BitVec.ofInt 8 n := by
  rw [← h]; simp

theorem and_highNibble (b : Byte) : b &&& 0xF0#8 = BitVec.ofNat 8 (b.toNat / 16 * 16) := by revert b; decide

theorem and_lowNibble (b : Byte) : b &&& 0x0F#8 = BitVec.ofNat 8 (b.toNat % 16) := by revert b; decide

/-- A base with a zero low nibble and a 4-bit channel: their sum is their OR (40_encode R76). -/
theorem base_add_eq_or (f : ButtonFunction) (d : Bool) (c : BitVec 4) :
    baseStatus f d + zext8 c = baseStatus f d ||| zext8 c := by
  rcases baseStatus_cases f d with h | h | h <;> rw [h] <;> revert c <;> decide

/-- The zero-extended channel field of an in-range channel is the channel's own byte. -/
theorem zext8_channelBits {c : Int} (h0 : 0 ≤ c) (h1 : c ≤ 15) : zext8 (channelBits c) = BitVec.ofInt 8 c := by
  apply byte_eq_ofInt
  have := channelBits_toNat h0 h1
  simp [zext8]; omega

end Sys2Proof.Machine
end

