-- ==== Sys2Proof/Laws/State.lean ====
section
/-! SUPPORT. One lemma per field per shared update, true by rfl, so that no later proof unfolds a record update. -/

namespace Sys2Proof.Machine

/-! ### `recordTransaction` -/

@[simp] theorem recordTransaction_k (i : Instr) (m : MidiMessage) (s : State) :
    (recordTransaction i m s).k = s.k + 1 := rfl
@[simp] theorem recordTransaction_inputs (i : Instr) (m : MidiMessage) (s : State) :
    (recordTransaction i m s).inputs = some i.ports := rfl
@[simp] theorem recordTransaction_history (i : Instr) (m : MidiMessage) (s : State) :
    (recordTransaction i m s).history = s.history ++ [⟨i, m⟩] := rfl
@[simp] theorem recordTransaction_active (i : Instr) (m : MidiMessage) (s : State) :
    (recordTransaction i m s).active = s.active := rfl
@[simp] theorem recordTransaction_store (i : Instr) (m : MidiMessage) (s : State) :
    (recordTransaction i m s).store = s.store := rfl
@[simp] theorem recordTransaction_sends (i : Instr) (m : MidiMessage) (s : State) :
    (recordTransaction i m s).sends = s.sends := rfl
@[simp] theorem recordTransaction_reports (i : Instr) (m : MidiMessage) (s : State) :
    (recordTransaction i m s).reports = s.reports := rfl
@[simp] theorem recordTransaction_draws (i : Instr) (m : MidiMessage) (s : State) :
    (recordTransaction i m s).draws = s.draws := rfl
@[simp] theorem recordTransaction_pending (i : Instr) (m : MidiMessage) (s : State) :
    (recordTransaction i m s).pending = s.pending := rfl

/-! ### `report` -/

@[simp] theorem report_k (r : Report) (s : State) :
    (report r s).k = s.k := rfl
@[simp] theorem report_inputs (r : Report) (s : State) :
    (report r s).inputs = s.inputs := rfl
@[simp] theorem report_history (r : Report) (s : State) :
    (report r s).history = s.history := rfl
@[simp] theorem report_active (r : Report) (s : State) :
    (report r s).active = s.active := rfl
@[simp] theorem report_store (r : Report) (s : State) :
    (report r s).store = s.store := rfl
@[simp] theorem report_sends (r : Report) (s : State) :
    (report r s).sends = s.sends := rfl
@[simp] theorem report_reports (r : Report) (s : State) :
    (report r s).reports = s.reports ++ [r] := rfl
@[simp] theorem report_draws (r : Report) (s : State) :
    (report r s).draws = s.draws := rfl
@[simp] theorem report_pending (r : Report) (s : State) :
    (report r s).pending = s.pending := rfl

/-! ### `sendMessage` -/

@[simp] theorem sendMessage_k (m : MidiMessage) (s : State) :
    (sendMessage m s).k = s.k := rfl
@[simp] theorem sendMessage_inputs (m : MidiMessage) (s : State) :
    (sendMessage m s).inputs = s.inputs := rfl
@[simp] theorem sendMessage_history (m : MidiMessage) (s : State) :
    (sendMessage m s).history = s.history := rfl
@[simp] theorem sendMessage_active (m : MidiMessage) (s : State) :
    (sendMessage m s).active = s.active := rfl
@[simp] theorem sendMessage_store (m : MidiMessage) (s : State) :
    (sendMessage m s).store = s.store := rfl
@[simp] theorem sendMessage_sends (m : MidiMessage) (s : State) :
    (sendMessage m s).sends = s.sends ++ [m] := rfl
@[simp] theorem sendMessage_reports (m : MidiMessage) (s : State) :
    (sendMessage m s).reports = s.reports ++ [.sendReturned (Config.sendResult s.draws (messageBytes m))] := rfl
@[simp] theorem sendMessage_draws (m : MidiMessage) (s : State) :
    (sendMessage m s).draws = s.draws + 1 := rfl
@[simp] theorem sendMessage_pending (m : MidiMessage) (s : State) :
    (sendMessage m s).pending = s.pending := rfl

/-! ### `openPort` -/

@[simp] theorem openPort_k (index : Nat) (s : State) :
    (openPort index s).k = s.k := rfl
@[simp] theorem openPort_inputs (index : Nat) (s : State) :
    (openPort index s).inputs = s.inputs := rfl
@[simp] theorem openPort_history (index : Nat) (s : State) :
    (openPort index s).history = s.history := rfl
@[simp] theorem openPort_active (index : Nat) (s : State) :
    (openPort index s).active = s.active := rfl
@[simp] theorem openPort_store (index : Nat) (s : State) :
    (openPort index s).store = s.store := rfl
@[simp] theorem openPort_sends (index : Nat) (s : State) :
    (openPort index s).sends = s.sends := rfl
@[simp] theorem openPort_reports (index : Nat) (s : State) :
    (openPort index s).reports = s.reports ++ [.openPortReturned index (Config.openPortResult s.draws index)] := rfl
@[simp] theorem openPort_draws (index : Nat) (s : State) :
    (openPort index s).draws = s.draws + 1 := rfl
@[simp] theorem openPort_pending (index : Nat) (s : State) :
    (openPort index s).pending = s.pending := rfl

/-! ### Views after an update -/

@[simp] theorem recordTransaction_messages (i : Instr) (m : MidiMessage) (s : State) :
    (recordTransaction i m s).messages = s.messages ++ [m] := by simp [State.messages]
@[simp] theorem recordTransaction_storeEntry (i : Instr) (m : MidiMessage) (s : State) (index : Int) :
    (recordTransaction i m s).storeEntry index = s.storeEntry index := rfl
@[simp] theorem recordTransaction_lifecycle (i : Instr) (m : MidiMessage) (s : State) :
    (recordTransaction i m s).lifecycle = s.lifecycle := rfl
@[simp] theorem recordTransaction_outputs (i : Instr) (m : MidiMessage) (s : State) :
    (recordTransaction i m s).outputs = some (portOutputs i.ports) := rfl
@[simp] theorem report_messages (r : Report) (s : State) : (report r s).messages = s.messages := rfl
@[simp] theorem report_storeEntry (r : Report) (s : State) (index : Int) :
    (report r s).storeEntry index = s.storeEntry index := rfl
@[simp] theorem report_lifecycle (r : Report) (s : State) : (report r s).lifecycle = s.lifecycle := rfl
@[simp] theorem report_reportedButtons (r : Report) (s : State) :
    (report r s).reportedButtons = s.reportedButtons := rfl
@[simp] theorem sendMessage_messages (m : MidiMessage) (s : State) : (sendMessage m s).messages = s.messages := rfl
@[simp] theorem sendMessage_lifecycle (m : MidiMessage) (s : State) : (sendMessage m s).lifecycle = s.lifecycle := rfl
@[simp] theorem forwardLast_recordTransaction (i : Instr) (m : MidiMessage) (s : State) :
    forwardLast (recordTransaction i m s) = sendMessage m (recordTransaction i m s) := by simp [forwardLast]
@[simp] theorem storeEntry_setPending (s : State) (rest : List HostEvent) (index : Int) :
    ({ s with pending := rest } : State).storeEntry index = s.storeEntry index := rfl

end Sys2Proof.Machine
end

