-- ==== Sys2Proof/Laws/Ops.lean ====
section
/-! SUPPORT. Everything the shared operations and the router can do, said once. -/

namespace Sys2Proof.Machine

/-! ### One transaction -/

/-- An in-range operation completes, with exactly this state. -/
theorem transact_of_wellFormed {i : Instr} (h : i.wellFormed = true) (m : MidiMessage) (s : State) :
    transact i m s = .next (recordTransaction i m s) := by
  rw [Instr.wellFormed_eq, Bool.and_eq_true] at h
  simp [transact, h.1, h.2]

/-- Everything a transaction that answers a next state did. -/
theorem transact_next {i : Instr} {m : MidiMessage} {s t : State} (h : transact i m s = .next t) :
    i.wellFormed = true ∧ t = recordTransaction i m s := by
  by_cases hc : channelInRange i.channel = true <;> by_cases hv : valueInRange i.value = true <;>
    simp_all [transact, Instr.wellFormed_eq]

/-- The four meanings agree with the spec's common definition `encode` (40_encode R67). -/
theorem exec_eq_transact (i : Instr) (s : State) : exec i s = transact i (midiEncode i.config i.isRelease) s := by
  cases i <;> rfl

/-- An in-range operation completes, with exactly this state. -/
theorem exec_of_wellFormed {i : Instr} (h : i.wellFormed = true) (s : State) :
    exec i s = .next (recordTransaction i (midiEncode i.config i.isRelease) s) := by
  rw [exec_eq_transact, transact_of_wellFormed h]

/-- Everything an operation that answers a next state did. -/
theorem exec_next {i : Instr} {s t : State} (h : exec i s = .next t) :
    i.wellFormed = true ∧ t = recordTransaction i (midiEncode i.config i.isRelease) s := by
  rw [exec_eq_transact] at h; exact transact_next h

/-! ### The store -/

/-- Everything a store entry that exists is: an element at an index inside the store's domain (20_memory R33). -/
theorem storeEntry_some {s : State} {index : Int} {cfg : ButtonConfig} (h : s.storeEntry index = some cfg) :
    0 ≤ index ∧ index < s.store.length ∧ s.store[index.toNat]? = some cfg ∧ cfg ∈ s.store := by
  by_cases h0 : 0 ≤ index
  · rw [State.storeEntry, if_pos h0] at h
    obtain ⟨hlt, -⟩ := List.getElem?_eq_some_iff.1 h
    exact ⟨h0, by omega, h, List.mem_of_getElem? h⟩
  · simp [State.storeEntry, h0] at h

/-- An index outside `0 <= i < len(ControllerConfigStore)` has no entry. -/
theorem storeEntry_eq_none_iff (s : State) (index : Int) :
    s.storeEntry index = none ↔ ¬ (0 ≤ index ∧ index < s.store.length) := by
  by_cases h0 : 0 ≤ index
  · simp only [State.storeEntry, if_pos h0, List.getElem?_eq_none_iff]; omega
  · simp [State.storeEntry, h0]

/-- An index inside the domain has an entry. -/
theorem storeEntry_of_lt {s : State} {index : Int} (h0 : 0 ≤ index) (h1 : index < s.store.length) :
    ∃ cfg, s.storeEntry index = some cfg := by
  cases h : s.storeEntry index with
  | none => exact absurd ⟨h0, h1⟩ ((storeEntry_eq_none_iff s index).1 h)
  | some cfg => exact ⟨cfg, rfl⟩

/-! ### The router -/

/-- Out of bounds, a button event is dropped (60_exceptions R88). -/
theorem routeButton_dropped {s : State} {index : Int} (h : s.storeEntry index = none) (d : Bool) :
    routeButton index d s = .next (report (.buttonDropped index d) s) := by
  simp [routeButton, h]

/-- In bounds with an in-range entry, a button event makes the transaction and forwards its message (60_exceptions R98). -/
theorem routeButton_dispatched {s : State} {index : Int} {cfg : ButtonConfig} (h : s.storeEntry index = some cfg)
    (hr : cfg.inRange = true) (d : Bool) :
    routeButton index d s =
      .next (sendMessage (midiEncode cfg d) (recordTransaction (Instr.ofRequest cfg d) (midiEncode cfg d) s)) := by
  simp [routeButton, h, exec_of_wellFormed, hr]

/-- Everything the router's dispatch that answers a next state did. -/
theorem routeButton_next {s t : State} {index : Int} {d : Bool} (h : routeButton index d s = .next t) :
    (s.storeEntry index = none ∧ t = report (.buttonDropped index d) s) ∨
    (∃ cfg, s.storeEntry index = some cfg ∧ cfg.inRange = true ∧
      t = sendMessage (midiEncode cfg d) (recordTransaction (Instr.ofRequest cfg d) (midiEncode cfg d) s)) := by
  cases hs : s.storeEntry index with
  | none =>
    rw [routeButton_dropped hs] at h
    exact .inl ⟨rfl, by simpa using h.symm⟩
  | some cfg =>
    refine .inr ⟨cfg, rfl, ?_⟩
    cases hr : cfg.inRange with
    | true =>
      rw [routeButton_dispatched hs hr] at h
      exact ⟨rfl, by simpa using h.symm⟩
    | false =>
      exfalso
      simp only [routeButton, hs] at h
      cases he : exec (Instr.ofRequest cfg d) s with
      | next u => simpa [hr] using (exec_next he).1
      | fault r => cases r
      | refused r => rw [he] at h; simp at h

/-! ### Words, attach, detach, configuration writes -/

/-- A number of at most 13 bits presented as a command word runs what it decodes to. -/
theorem presentWord_of_lt {n : Nat} (h : n < 8192) (s : State) :
    presentWord n s = exec (decode (BitVec.ofNat 13 n)) s := by
  simp [presentWord, decodeNumber_of_lt h]

theorem presentWord_of_ge {n : Nat} (h : ¬ n < 8192) (s : State) :
    presentWord n s = .refused (.notACommandWord n) := by
  simp [presentWord, decodeNumber_of_ge h]

theorem onAttach_of_active {s : State} {a : ActiveController} (h : s.active = some a) (d : DeviceId) (n : Nat)
    (o : Option Handle) : onAttach d n o s = report (.attachReturned d .alreadyActive) s := by
  simp [onAttach, h]

theorem onAttach_of_openFailed {s : State} (h : s.active = none) (d : DeviceId) (n : Nat) :
    onAttach d n none s = report (.attachReturned d .openFailed) s := by
  simp [onAttach, h]

theorem onAttach_of_opened {s : State} (h : s.active = none) (d : DeviceId) (n : Nat) (o : Handle) :
    onAttach d n (some o) s = report (.attachReturned d .installed)
      { s with active := some ⟨o, d, n⟩, store := List.replicate n ButtonConfig.default } := by
  simp [onAttach, h]

theorem onDetach_of_none {s : State} (h : s.active = none) (d : DeviceId) : onDetach d s = s := by
  simp [onDetach, h]

theorem onDetach_of_matching {s : State} {a : ActiveController} (h : s.active = some a) :
    onDetach a.deviceId s = report (.handleReleased a.handle) { s with active := none, store := [] } := by
  simp [onDetach, h]

theorem onDetach_of_other {s : State} {a : ActiveController} (h : s.active = some a) {d : DeviceId}
    (hd : a.deviceId ≠ d) : onDetach d s = s := by
  simp [onDetach, h, hd]

/-- Everything a configuration write that answers a next state did. -/
theorem configWrite_next {s t : State} {index : Int} {cfg : ButtonConfig} (h : configWrite index cfg s = .next t) :
    0 ≤ index ∧ index < s.store.length ∧ t = { s with store := s.store.set index.toNat (clampConfig cfg) } := by
  cases hs : s.storeEntry index with
  | none => simp [configWrite, hs] at h
  | some old =>
    simp only [configWrite, hs] at h
    obtain ⟨h0, h1, -⟩ := storeEntry_some hs
    exact ⟨h0, h1, by simpa using h.symm⟩

/-- An in-bounds configuration write completes, with exactly this state. -/
theorem configWrite_of_lt {s : State} {index : Int} (h0 : 0 ≤ index) (h1 : index < s.store.length) (cfg : ButtonConfig) :
    configWrite index cfg s = .next { s with store := s.store.set index.toNat (clampConfig cfg) } := by
  obtain ⟨old, hs⟩ := storeEntry_of_lt h0 h1
  simp [configWrite, hs]

/-- What a mutator stores is in range (10_state R20). -/
theorem clampConfig_inRange (cfg : ButtonConfig) : (clampConfig cfg).inRange = true := by
  rw [ButtonConfig.inRange_iff]
  simp only [clampConfig, clamp, Config.channelMin, Config.channelMax, Config.valueMin, Config.valueMax]
  refine ⟨⟨?_, ?_⟩, ?_, ?_⟩ <;> split_ifs <;> omega

/-! ### One step -/

/-- Everything a step that answers a next state did: nothing with nothing pending, else one action for the oldest event. -/
theorem step_next {s t : State} (h : step s = .next t) :
    (s.pending = [] ∧ t = s) ∨
    ∃ e rest, s.pending = e :: rest ∧ handleEvent e { s with pending := rest } = .next t := by
  cases hp : s.pending with
  | nil => simp only [step, hp] at h; exact .inl ⟨rfl, by simpa using h.symm⟩
  | cons e rest => simp only [step, hp] at h; exact .inr ⟨e, rest, rfl, h⟩

/-- A step with an event pending is that event's one action. -/
theorem step_of_pending {s : State} {e : HostEvent} {rest : List HostEvent} (h : s.pending = e :: rest) :
    step s = handleEvent e { s with pending := rest } := by
  simp [step, h]

/-! ### Frames of attach and detach, and clamping what is in range -/

/-- An attach touches the controller, the store and the reports, nothing else. -/
theorem onAttach_frame (d : DeviceId) (n : Nat) (o : Option Handle) (s : State) :
    ({ onAttach d n o s with active := s.active, store := s.store, reports := s.reports } : State) = s := by
  rcases Option.eq_none_or_eq_some s.active with ha | ⟨a, ha⟩
  · rcases o with _ | o
    · rw [onAttach_of_openFailed ha]; rfl
    · rw [onAttach_of_opened ha]; rfl
  · rw [onAttach_of_active ha]; rfl

/-- A detach touches the controller, the store and the reports, nothing else. -/
theorem onDetach_frame (d : DeviceId) (s : State) :
    ({ onDetach d s with active := s.active, store := s.store, reports := s.reports } : State) = s := by
  rcases Option.eq_none_or_eq_some s.active with ha | ⟨a, ha⟩
  · rw [onDetach_of_none ha]
  · by_cases hd : a.deviceId = d
    · subst hd; rw [onDetach_of_matching ha]; rfl
    · rw [onDetach_of_other ha hd]

/-- Clamping leaves an in-range configuration as it is (10_state R21). -/
theorem clampConfig_of_inRange {cfg : ButtonConfig} (h : cfg.inRange = true) : clampConfig cfg = cfg := by
  obtain ⟨⟨h0, h1⟩, h2, h3⟩ := (ButtonConfig.inRange_iff _).1 h
  rcases cfg with ⟨f, c, v⟩
  simp only [clampConfig, clamp, Config.channelMin, Config.channelMax, Config.valueMin, Config.valueMax,
    ButtonConfig.mk.injEq, true_and] at *
  constructor <;> split_ifs <;> omega

/-- A store element at a non-negative index is that index's entry. -/
theorem storeEntry_of_getElem? {s : State} {index : Int} {cfg : ButtonConfig} (h0 : 0 ≤ index)
    (h : s.store[index.toNat]? = some cfg) : s.storeEntry index = some cfg := by
  simp [State.storeEntry, h0, h]

end Sys2Proof.Machine
end

