-- ==== Sys2Proof/Laws/PerInstr.lean ====
section
/-! SUPPORT. Facts about every operation as syntax, one lemma per constructor. -/

namespace Sys2Proof.Laws

/-- An operation is the one its own configuration and direction select (30_encoding R56). -/
def Selection.Statement (i : Instr) : Prop := Instr.ofRequest i.config i.isRelease = i

theorem Selection.noteOn (c v : Int) : Selection.Statement (.noteOn c v) := rfl
theorem Selection.ccPress (c v : Int) : Selection.Statement (.ccPress c v) := rfl
theorem Selection.noteOff (c v : Int) : Selection.Statement (.noteOff c v) := rfl
theorem Selection.ccRelease (c v : Int) : Selection.Statement (.ccRelease c v) := rfl

/-- An operation is well formed exactly when its configuration is in range (10_state R20). -/
def Ranges.Statement (i : Instr) : Prop := i.wellFormed = i.config.inRange

theorem Ranges.noteOn (c v : Int) : Ranges.Statement (.noteOn c v) := rfl
theorem Ranges.ccPress (c v : Int) : Ranges.Statement (.ccPress c v) := rfl
theorem Ranges.noteOff (c v : Int) : Ranges.Statement (.noteOff c v) := rfl
theorem Ranges.ccRelease (c v : Int) : Ranges.Statement (.ccRelease c v) := rfl

end Sys2Proof.Laws
end

