-- ==== Sys2Proof/Laws/Safety.lean ====
section
/-! SUPPORT. The views of Safety.lean on the shared operations, and what one event does to the observation. -/

namespace Sys2Proof.Machine

/-- The message of an in-range operation, in any state. -/
theorem blockReturns_of_wellFormed {i : Instr} (h : i.wellFormed = true) (s : State) :
    blockReturns i s = some (midiEncode i.config i.isRelease) := by
  simp [blockReturns, exec_of_wellFormed h]

/-- The message of an in-range structured request, in any state. -/
theorem blockReturns_ofRequest {cfg : ButtonConfig} (h : cfg.inRange = true) (d : Bool) (s : State) :
    blockReturns (Instr.ofRequest cfg d) s = some (midiEncode cfg d) := by
  rw [blockReturns_of_wellFormed (by simpa using h)]; simp

/-- A button notification is the router's dispatch of that button. -/
theorem handleEvent_buttonEvent (index : Int) (d : Bool) (s : State) :
    handleEvent (buttonEvent index d) s = routeButton index d s := by
  cases d <;> rfl

theorem requestOf_buttonEvent (index : Int) (d : Bool) (s : State) :
    requestOf s (buttonEvent index d) = (s.storeEntry index).map fun cfg => Instr.ofRequest cfg d := by
  cases d <;> rfl

/-- A step with a button notification pending. -/
theorem step_of_buttonEvent {s : State} {index : Int} {d : Bool} {rest : List HostEvent}
    (h : s.pending = buttonEvent index d :: rest) : step s = routeButton index d { s with pending := rest } := by
  rw [step_of_pending h, handleEvent_buttonEvent]

/-- An event that brings the block a request makes its transaction and, from a button, one `send`. -/
inductive EventEffect (s : State) (e : HostEvent) : State → Prop where
  /-- A request presented at the block's own interfaces. -/
  | presented (i : Instr) (hr : requestOf s e = some i) (hw : i.wellFormed = true)
      (hb : ∀ index d, e ≠ buttonEvent index d) :
      EventEffect s e (recordTransaction i (midiEncode i.config i.isRelease) s)
  /-- A dispatched button. -/
  | dispatched (index : Int) (d : Bool) (cfg : ButtonConfig) (he : e = buttonEvent index d)
      (hs : s.storeEntry index = some cfg) (hc : cfg.inRange = true) :
      EventEffect s e (sendMessage (midiEncode cfg d) (recordTransaction (Instr.ofRequest cfg d) (midiEncode cfg d) s))
  /-- A dropped button. -/
  | dropped (index : Int) (d : Bool) (he : e = buttonEvent index d) (hs : s.storeEntry index = none) :
      EventEffect s e (report (.buttonDropped index d) s)
  /-- An attach. -/
  | attached (device : DeviceId) (n : Nat) (opened : Option Handle) (he : e = .attach device n opened) :
      EventEffect s e (onAttach device n opened s)
  /-- A detach. -/
  | detached (device : DeviceId) (he : e = .detach device) : EventEffect s e (onDetach device s)
  /-- A configuration write. -/
  | written (index : Int) (cfg : ButtonConfig) (he : e = .configWrite index cfg) (h0 : 0 ≤ index)
      (h1 : index < s.store.length) :
      EventEffect s e { s with store := s.store.set index.toNat (clampConfig cfg) }
  /-- A port list or a port close. -/
  | untouched (he : e = .listPorts ∨ e = .closePort) : EventEffect s e s
  /-- A port open. -/
  | opened (index : Nat) (he : e = .openPort index) : EventEffect s e (openPort index s)

/-- Everything an event that answers a next state did. -/
theorem handleEvent_next {e : HostEvent} {s t : State} (h : handleEvent e s = .next t) : EventEffect s e t := by
  have button (index : Int) (d : Bool) (h : routeButton index d s = .next t) : EventEffect s (buttonEvent index d) t := by
    rcases routeButton_next h with ⟨hs, rfl⟩ | ⟨cfg, hs, hc, rfl⟩
    · exact .dropped index d rfl hs
    · exact .dispatched index d cfg rfl hs hc
  have notButton (e' : HostEvent) (h1 : ∀ index, e' ≠ .press index) (h2 : ∀ index, e' ≠ .release index) :
      ∀ index d, e' ≠ buttonEvent index d := by
    intro index d; cases d
    · exact h1 index
    · exact h2 index
  cases e with
  | press index => exact button index false h
  | release index => exact button index true h
  | attach device n o => cases h; exact .attached device n o rfl
  | detach device => cases h; exact .detached device rfl
  | configWrite index cfg =>
    obtain ⟨h0, h1, rfl⟩ := configWrite_next h
    exact .written index cfg rfl h0 h1
  | listPorts => cases h; exact .untouched (.inl rfl)
  | openPort index => cases h; exact .opened index rfl
  | closePort => cases h; exact .untouched (.inr rfl)
  | command word =>
    change presentWord word s = .next t at h
    by_cases hw : word < 8192
    · rw [presentWord_of_lt hw] at h
      obtain ⟨hwf, rfl⟩ := exec_next h
      exact .presented _ (by simp [requestOf, hw]) hwf (notButton _ (by simp) (by simp))
    · rw [presentWord_of_ge hw] at h; cases h
  | ports lines =>
    obtain ⟨hwf, rfl⟩ := exec_next h
    exact .presented _ (by simp [requestOf]) hwf (notButton _ (by simp) (by simp))
  | request cfg d =>
    obtain ⟨hwf, rfl⟩ := exec_next h
    exact .presented _ rfl hwf (notButton _ (by simp) (by simp))

/-! ### Runs -/

@[simp] theorem runFrom_zero (s : State) : runFrom 0 s = .next s := rfl

/-- A run goes on from the state of a step that completes. -/
theorem runFrom_of_step {s u : State} (h : step s = .next u) (n : Nat) : runFrom (n + 1) s = runFrom n u := by
  have hs : Sys2Proof.core.step s = .next u := h
  simp only [runFrom, Host.Core.run]
  rw [hs]

/-- A run that ends in a state completed its first step. -/
theorem runFrom_succ_next {n : Nat} {s t : State} (h : runFrom (n + 1) s = .next t) :
    ∃ u, step s = .next u ∧ runFrom n u = .next t := by
  cases hs : step s with
  | next u => exact ⟨u, rfl, runFrom_of_step hs n ▸ h⟩
  | fault r => cases r
  | refused r =>
    have hs' : Sys2Proof.core.step s = .refused r := hs
    simp only [runFrom, Host.Core.run] at h
    rw [hs'] at h
    cases h

end Sys2Proof.Machine
end

