-- ==== Sys2Proof/Laws/Run.lean ====
section
/-! SUPPORT. One event's action carries the rest of the queue along unchanged, and the steps of a run over a stream. -/

namespace Sys2Proof.Machine

@[simp] theorem present_pending (e : HostEvent) (s : State) : (present e s).pending = s.pending ++ [e] := rfl

/-- An outcome with another queue in its next state. -/
def withPending (q : List HostEvent) (o : Host.Outcome State Fault Refusal) : Host.Outcome State Fault Refusal :=
  match o with
  | .next t => .next { t with pending := q }
  | .fault r => .fault r
  | .refused r => .refused r

theorem transact_setPending (i : Instr) (m : MidiMessage) (s : State) (q : List HostEvent) :
    transact i m { s with pending := q } = withPending q (transact i m s) := by
  unfold transact; split
  · split <;> rfl
  · rfl

theorem exec_setPending (i : Instr) (s : State) (q : List HostEvent) :
    exec i { s with pending := q } = withPending q (exec i s) := by
  rw [exec_eq_transact, exec_eq_transact]; exact transact_setPending _ _ _ _

theorem forwardLast_setPending (s : State) (q : List HostEvent) :
    forwardLast { s with pending := q } = { forwardLast s with pending := q } := by
  unfold forwardLast; cases s.history.getLast? <;> rfl

theorem routeButton_setPending (index : Int) (d : Bool) (s : State) (q : List HostEvent) :
    routeButton index d { s with pending := q } = withPending q (routeButton index d s) := by
  unfold routeButton
  rw [storeEntry_setPending]
  cases s.storeEntry index with
  | none => rfl
  | some cfg =>
    simp only [exec_setPending]
    cases exec (Instr.ofRequest cfg d) s with
    | next t => exact congrArg Host.Outcome.next (forwardLast_setPending t q)
    | fault r => rfl
    | refused r => rfl

/-- What an event does does not depend on the events that wait behind it, and leaves them waiting. -/
theorem handleEvent_setPending (e : HostEvent) (s : State) (q : List HostEvent) :
    handleEvent e { s with pending := q } = withPending q (handleEvent e s) := by
  cases e with
  | press index => exact routeButton_setPending index false s q
  | release index => exact routeButton_setPending index true s q
  | attach device n opened =>
    refine congrArg Host.Outcome.next ?_
    rcases Option.eq_none_or_eq_some s.active with ha | ⟨a, ha⟩
    · cases opened with
      | none => rw [onAttach_of_openFailed ha, onAttach_of_openFailed (s := { s with pending := q }) ha]; rfl
      | some o => rw [onAttach_of_opened ha, onAttach_of_opened (s := { s with pending := q }) ha]; rfl
    · rw [onAttach_of_active ha, onAttach_of_active (s := { s with pending := q }) ha]; rfl
  | detach device =>
    refine congrArg Host.Outcome.next ?_
    rcases Option.eq_none_or_eq_some s.active with ha | ⟨a, ha⟩
    · rw [onDetach_of_none ha, onDetach_of_none (s := { s with pending := q }) ha]
    · by_cases hd : a.deviceId = device
      · subst hd; rw [onDetach_of_matching ha, onDetach_of_matching (s := { s with pending := q }) ha]; rfl
      · rw [onDetach_of_other ha hd, onDetach_of_other (s := { s with pending := q }) ha hd]
  | configWrite index cfg =>
    simp only [handleEvent, configWrite, storeEntry_setPending]
    cases s.storeEntry index <;> rfl
  | listPorts => rfl
  | openPort index => rfl
  | closePort => rfl
  | command word =>
    simp only [handleEvent, presentWord]
    cases decodeNumber word with
    | ok i => exact exec_setPending i s q
    | error r => cases r; rfl
  | ports lines => exact exec_setPending _ s q
  | request cfg d => exact exec_setPending _ s q

/-- The queue after an event is the queue it found. -/
theorem handleEvent_pending {e : HostEvent} {s t : State} (h : handleEvent e s = .next t) : t.pending = s.pending := by
  have hs : Host.Outcome.next t = withPending s.pending (handleEvent e s) :=
    h.symm.trans (handleEvent_setPending e s s.pending)
  rw [h, withPending] at hs
  have ht : t = { t with pending := s.pending } := Host.Outcome.next.inj hs
  rw [ht]

/-- With an empty queue, presenting an event and stepping is that event's action. -/
theorem step_present {s : State} (h : s.pending = []) (e : HostEvent) : step (present e s) = handleEvent e s := by
  rw [step_of_pending (e := e) (rest := []) (by simp [h])]
  rw [← h]; rfl

/-- A run over a stream goes on from the state of a step that completes. -/
theorem runEvents_of_step {events : Nat → HostEvent} {s t : State} (h : step (present (events 0) s) = .next t) (n : Nat) :
    runEvents events (n + 1) s = runEvents (fun j => events (j + 1)) n t := by
  simp only [runEvents, h]

/-- A step that always completes from a state meeting a condition it keeps can be taken without end. -/
theorem infiniteRun_of_progress {events : Nat → HostEvent} {P : Nat → State → Prop}
    (progress : ∀ n s, P n s → ∃ t, step (present (events n) s) = .next t ∧ P (n + 1) t) {s : State} (h : P 0 s) :
    ∃ states : Nat → State, states 0 = s ∧ InfiniteRun events states ∧ ∀ n, P n (states n) := by
  choose next hstep hnext using progress
  let path : (n : Nat) → { s : State // P n s } := fun n =>
    Nat.rec ⟨s, h⟩ (fun n x => ⟨next n x.1 x.2, hnext n x.1 x.2⟩) n
  exact ⟨fun n => (path n).1, rfl, fun n => hstep n _ (path n).2, fun n => (path n).2⟩

end Sys2Proof.Machine
end

