-- ==== Sys2Proof/Laws/Stream.lean ====
section
/-! SUPPORT. Framing one message off a stream (30_encoding R61). -/

namespace Sys2Proof.Machine

/-- A message whose status byte tells its length is read off the front of a stream. -/
theorem splitStream_append (m : MidiMessage) (rest : List Byte) (h : framedLength m.status = some (messageLength m)) :
    splitStream (messageBytes m ++ rest) = (splitStream rest).map (m :: ·) := by
  rcases m with ⟨st, d1, _ | d2⟩
  · simp only [messageBytes, messageLength, List.length_cons, List.length_nil, List.cons_append, List.nil_append] at h ⊢
    cases rest <;> simp [splitStream, h]
  · simp only [messageBytes, messageLength, List.length_cons, List.length_nil, List.cons_append, List.nil_append] at h ⊢
    simp [splitStream, h]

/-- The status byte of a message of the common definition tells its length. -/
theorem framedLength_midiEncode {cfg : ButtonConfig} (h : cfg.inRange = true) (d : Bool) :
    framedLength (midiEncode cfg d).status = some (messageLength (midiEncode cfg d)) := by
  have hst := midiEncode_status_toNat h d
  obtain ⟨⟨h0, h1⟩, -⟩ := (ButtonConfig.inRange_iff _).1 h
  have ht (n : Nat) (hn : (midiEncode cfg d).status.toNat / 16 = n) (hlt : n < 16) :
      messageType (midiEncode cfg d).status = BitVec.ofNat 4 n := by
    apply BitVec.eq_of_toNat_eq
    rw [messageType_toNat, hn, BitVec.toNat_ofNat, Nat.mod_eq_of_lt hlt]
  rcases cfg with ⟨_ | _, c, v⟩ <;> cases d <;>
    simp only [baseStatus, baseNoteOn, baseNoteOff, baseCc, BitVec.toNat_ofNat] at hst h0 h1
  · rw [framedLength, ht 9 (by omega) (by omega)]; rfl
  · rw [framedLength, ht 8 (by omega) (by omega)]; rfl
  · rw [framedLength, ht 11 (by omega) (by omega)]; rfl
  · rw [framedLength, ht 11 (by omega) (by omega)]; rfl

end Sys2Proof.Machine
end

