-- ==== Sys2Proof/Tests/Slice0.lean ====
section
/-! SUPPORT. Tests: ill-formed operations refused, words written out from 30_encoding R51 decoded, one-step results taken from
95_test_vectors, and for each statement with hypotheses a witness that meets them. -/

namespace Sys2Proof.Tests

open Sys2Proof Sys2Proof.Machine

/-! ### Helpers -/

/-- The next state of an outcome, if there is one. -/
def after (o : Host.Outcome State Fault Refusal) : Option State :=
  match o with
  | .next s => some s
  | .fault _ => none
  | .refused _ => none

/-- The refusal of an outcome, if there is one. -/
def refusal (o : Host.Outcome State Fault Refusal) : Option Refusal :=
  match o with
  | .next _ => none
  | .fault _ => none
  | .refused r => some r

/-- The bytes an operation returns from process start. -/
def bytesOf (i : Instr) : Option (List Byte) := (blockReturns i State.reset).map messageBytes

/-- ACTIVE, two buttons (one of each function), one transaction made and sent; the pending events are the test's. -/
def sample (pending : List HostEvent) : State where
  k := 1
  inputs := some ⟨0#1, 9#4, 36#7, 0#1⟩
  history := [⟨.noteOn 9 36, ⟨0x99#8, 0x24#8, some 0x5A#8⟩⟩]
  active := some ⟨1, 7, 2⟩
  store := [⟨.note, 9, 36⟩, ⟨.controlChange, 3, 20⟩]
  sends := [⟨0x99#8, 0x24#8, some 0x5A#8⟩]
  reports := []
  draws := 1
  pending := pending

theorem sample_inv (pending : List HostEvent) : (sample pending).Inv where
  storeInRange := by intro cfg h; revert h cfg; show ∀ cfg ∈ [_, _], _; decide
  storeSized := rfl
  counted := rfl
  historySound := by intro t h; revert h t; show ∀ t ∈ [_], _; decide
  inputsShown := rfl
  sendsFromHistory := List.Sublist.refl _

/-! ### Well-formedness: one ill-formed term for each check -/

theorem test_wf_note_on_channel_high : (Instr.noteOn 16 0).wellFormed = false := by decide
theorem test_wf_note_on_value_high : (Instr.noteOn 0 128).wellFormed = false := by decide
theorem test_wf_note_off_channel_low : (Instr.noteOff (-1) 0).wellFormed = false := by decide
theorem test_wf_note_off_value_low : (Instr.noteOff 0 (-1)).wellFormed = false := by decide
theorem test_wf_cc_press_channel_high : (Instr.ccPress 16 0).wellFormed = false := by decide
theorem test_wf_cc_press_value_high : (Instr.ccPress 3 200).wellFormed = false := by decide
theorem test_wf_cc_release_channel_low : (Instr.ccRelease (-1) 5).wellFormed = false := by decide
theorem test_wf_cc_release_value_high : (Instr.ccRelease 0 128).wellFormed = false := by decide
theorem test_wf_corners : (Instr.noteOn 0 0).wellFormed = true ∧ (Instr.ccRelease 15 127).wellFormed = true := by decide
theorem test_inRange_refuses : (ButtonConfig.mk .note 16 0).inRange = false ∧ (ButtonConfig.mk .note 0 128).inRange = false := by
  decide

/-! ### Decoding: words written out bit by bit, `r f cccc vvvvvvv` (30_encoding R51); rows of 95_test_vectors L2 -/

theorem test_decode_note_on : decode 0b00_0011_0010100#13 = .noteOn 3 20 := by decide
theorem test_decode_note_off : decode 0b10_1001_0100100#13 = .noteOff 9 36 := by decide
theorem test_decode_cc_press : decode 0b01_0111_1000000#13 = .ccPress 7 64 := by decide
theorem test_decode_cc_release : decode 0b11_0001_0000001#13 = .ccRelease 1 1 := by decide
theorem test_encode_cc_press : encode (.ccPress 3 20) = some 0x0994#13 := by decide
theorem test_encode_cc_release : encode (.ccRelease 15 127) = some 0x1FFF#13 := by decide
theorem test_encode_note_on : encode (.noteOn 0 60) = some 0x003C#13 := by decide
theorem test_encode_note_off : encode (.noteOff 0 60) = some 0x103C#13 := by decide
theorem test_encode_refuses : encode (.noteOn 16 0) = none := by decide
theorem test_table_word : decodeTableWord 16 0x17FF = some (.noteOff 15 127) := by decide
theorem test_table_word_too_wide : decodeTableWord 16 0x2000 = none := by decide
theorem test_fetch_runs_the_word :
    (after (step (State.reset.withFetchWord 16 0x0FFF))).map State.messages = some [⟨0xBF#8, 0x7F#8, none⟩] := by decide

/-! ### The operations: 95_test_vectors L2 and P4 -/

theorem test_note_on : bytesOf (.noteOn 15 127) = some [0x9F#8, 0x7F#8, 0x5A#8] := by decide
theorem test_note_on_example : bytesOf (.noteOn 0 60) = some [0x90#8, 0x3C#8, 0x5A#8] := by decide
theorem test_note_off : bytesOf (.noteOff 15 127) = some [0x8F#8, 0x7F#8] := by decide
theorem test_note_off_example : bytesOf (.noteOff 0 60) = some [0x80#8, 0x3C#8] := by decide
theorem test_cc_press : bytesOf (.ccPress 3 20) = some [0xB3#8, 0x14#8] := by decide
theorem test_cc_press_corner : bytesOf (.ccPress 15 0) = some [0xBF#8, 0x00#8] := by decide
theorem test_cc_release : bytesOf (.ccRelease 3 20) = some [0xB3#8, 0x14#8] := by decide
theorem test_cc_release_corner : bytesOf (.ccRelease 0 127) = some [0xB0#8, 0x7F#8] := by decide

/-- The refusal table of 95_test_vectors L2. -/
theorem test_refusals :
    refusal (exec (Instr.ofRequest ⟨.note, 16, 0⟩ false) State.reset) = some (.channelOutOfRange 16) ∧
    refusal (exec (Instr.ofRequest ⟨.note, 0, 128⟩ false) State.reset) = some (.valueOutOfRange 128) ∧
    refusal (exec (Instr.ofRequest ⟨.controlChange, -1, 5⟩ true) State.reset) = some (.channelOutOfRange (-1)) ∧
    refusal (exec (Instr.ofRequest ⟨.controlChange, 3, 200⟩ false) State.reset) = some (.valueOutOfRange 200) := by decide

/-! ### Text forms: 30_encoding R63, R65 -/

theorem test_assemble_decimal :
    assemble ['C', 'C', '_', 'P', 'R', 'E', 'S', 'S', ' ', '3', ',', ' ', '2', '0'] = .ok (.ccPress 3 20) := by rfl
theorem test_assemble_hexadecimal :
    assemble ['N', 'O', 'T', 'E', '_', 'O', 'F', 'F', ' ', '0', 'x', 'F', ',', ' ', '0', 'x', '7', 'f'] =
      .ok (.noteOff 15 127) := by rfl
theorem test_request_text :
    requestText .hexadecimal .decimal (.ccPress 15 20) =
      ['C', 'C', '_', 'P', 'R', 'E', 'S', 'S', ' ', '0', 'x', 'F', ',', ' ', '2', '0'] := by decide
theorem test_assemble_out_of_range :
    assemble ['N', 'O', 'T', 'E', '_', 'O', 'N', ' ', '1', '6', ',', ' ', '0'] = .error .operandOutOfRange := by rfl
theorem test_message_text :
    messageText ⟨0xB3#8, 0x14#8, none⟩ = ['[', '0', 'x', 'B', '3', ',', ' ', '0', 'x', '1', '4', ']'] := by decide

/-! ### The environment: 95_test_vectors P1, P2, P3 -/

theorem test_attach_sizes_the_store :
    (after (step { State.reset with pending := [.attach 7 4 (some 1)] })).map State.store =
      some [⟨.note, 0, 0⟩, ⟨.note, 0, 0⟩, ⟨.note, 0, 0⟩, ⟨.note, 0, 0⟩] := by decide
theorem test_press_dispatches :
    (after (step (sample [.press 1]))).map (fun t => t.sends.drop 1) = some [⟨0xB3#8, 0x14#8, none⟩] := by decide
theorem test_release_dispatches :
    (after (step (sample [.release 0]))).map (fun t => t.sends.drop 1) = some [⟨0x89#8, 0x24#8, none⟩] := by decide
theorem test_press_at_the_length_is_dropped :
    (after (step (sample [.press 2]))).map (fun t => (t.k, t.sends.length)) = some (1, 1) := by decide
theorem test_second_attach_is_ignored :
    (after (step (sample [.attach 7 5 (some 2)]))).map (fun t => (t.active, t.store)) =
      some (some ⟨1, 7, 2⟩, [⟨.note, 9, 36⟩, ⟨.controlChange, 3, 20⟩]) := by decide
theorem test_other_detach_is_ignored : (after (step (sample [.detach 8]))).map State.active = some (some ⟨1, 7, 2⟩) := by
  decide
theorem test_detach_empties_the_store :
    (after (step (sample [.detach 7]))).map (fun t => (t.active, t.store)) = some (none, []) := by decide
theorem test_write_clamps :
    (after (step (sample [.configWrite 0 ⟨.controlChange, 16, -1⟩]))).map State.store =
      some [⟨.controlChange, 15, 0⟩, ⟨.controlChange, 3, 20⟩] := by decide

/-- The end of P4's stream and P2's framing (30_encoding R61). -/
theorem test_split_stream :
    splitStream [0x99#8, 0x24#8, 0x5A#8, 0x99#8, 0x26#8, 0x5A#8, 0x89#8, 0x24#8, 0x89#8, 0x26#8] =
      some [⟨0x99#8, 0x24#8, some 0x5A#8⟩, ⟨0x99#8, 0x26#8, some 0x5A#8⟩, ⟨0x89#8, 0x24#8, none⟩,
        ⟨0x89#8, 0x26#8, none⟩] := by decide

/-! ### Witnesses: for each statement with hypotheses, operands and a state that meet them, at the ends of their ranges -/

/-- For the statements about in-range operands: CommandWordPacksTheFields, StructuredRequestSelectsTheOperation, the four
…Returns… statements and LengthIsSetByTheOperation. -/
theorem witness_operand_ranges :
    ((0 : Int) ≤ 0 ∧ (0 : Int) ≤ 15 ∧ (0 : Int) ≤ 0 ∧ (0 : Int) ≤ 127) ∧
    ((0 : Int) ≤ 15 ∧ (15 : Int) ≤ 15 ∧ (0 : Int) ≤ 127 ∧ (127 : Int) ≤ 127) := by decide

/-- For the statements about well-formed operations: DecodeInvertsEncode, AssemblyTextRoundTrips,
OperationChangesOnlyItsTransaction, DataOneIsTheValue, VelocityOnlyInNoteOn, ChannelAdditionNeverCarries and
MessagesAreWellFormed. -/
theorem witness_well_formed :
    ∀ i ∈ [Instr.noteOn 0 0, .noteOn 15 127, .noteOff 0 127, .noteOff 15 0, .ccPress 0 0, .ccPress 15 127, .ccRelease 0 127,
      .ccRelease 15 0], i.wellFormed = true := by decide

/-- For the statements about in-range configurations: MeaningsRefineEncode, StatusCarriesTypeAndChannel, SourcePropertiesHold,
MessagesIdentifyTheirRequests (two different ones, and one message for both CC directions) and EncoderIsTotal. -/
theorem witness_in_range :
    (ButtonConfig.mk .note 15 127).inRange = true ∧ (ButtonConfig.mk .controlChange 0 0).inRange = true ∧
    blockReturns (.ccPress 0 0) State.reset = blockReturns (.ccRelease 0 0) State.reset ∧
    blockReturns (.noteOn 0 0) State.reset ≠ blockReturns (.noteOff 0 0) State.reset := by decide

/-- EveryCommandWordDecodes: the largest word, and an operation that has none. -/
theorem witness_every_word : (8191 : Nat) < 8192 ∧ (Instr.noteOn 0 128).wellFormed = false := by decide

/-- WideNumberIsRefused: the least such number. -/
theorem witness_wide_number : (8192 : Nat) ≤ 8192 ∧ (sample [.command 8192]).pending = .command 8192 :: [] := by decide

/-- AssemblyTextRoundTrips, third clause: operands one past their range and at the end of what the clause speaks of. -/
theorem witness_unassemblable :
    ∀ i ∈ [Instr.noteOn 16 0, .noteOff 0 128, .ccPress 255 127, .ccRelease 15 255],
      0 ≤ i.channel ∧ i.channel < 256 ∧ 0 ≤ i.value ∧ i.value < 256 ∧ i.wellFormed = false := by decide

/-- AssemblyTextRoundTrips, fourth clause: a text that assembles. -/
theorem witness_assembled_text : assemble (disassemble (.noteOn 15 127)) = .ok (.noteOn 15 127) := by rfl

/-- StreamSplitsIntoItsMessages, StreamLengthCountsNoteOns and OutputsShowTheLastMessage, with a message in the history. -/
theorem witness_invariant_with_history : (sample []).Inv ∧ (sample []).messages.length = 1 :=
  ⟨sample_inv [], rfl⟩

/-- CcDirectionIsInvisible: a CC word of each direction. -/
theorem witness_cc_word : (0x0994#13 : CmdWord).getLsbD 11 = true ∧ (0x1994#13 : CmdWord).getLsbD 11 = true := by decide

/-- PortLinesCarryTheMessage: a two-byte and a three-byte request on the lines. -/
theorem witness_port_lines :
    (after (step (sample [.ports ⟨1#1, 3#4, 20#7, 1#1⟩]))).map State.outputs = some (some ⟨2#2, 0xB3#8, 0x14#8, 0x00#8⟩) ∧
    (after (step (sample [.ports ⟨0#1, 15#4, 127#7, 0#1⟩]))).map State.outputs =
      some (some ⟨3#2, 0x9F#8, 0x7F#8, 0x5A#8⟩) := by decide

/-- OutOfRangeRequestIsRefused: each operand one past each end. -/
theorem witness_out_of_range :
    ∀ cfg ∈ [ButtonConfig.mk .note 16 0, ⟨.note, -1, 0⟩, ⟨.controlChange, 0, 128⟩, ⟨.controlChange, 0, -1⟩],
      cfg.inRange = false ∧ (sample [.request cfg true]).pending = .request cfg true :: [] := by decide

/-- OutOfBoundsButtonIsDropped: one past each end of the store. -/
theorem witness_out_of_bounds :
    (sample [.press 2]).pending = buttonEvent 2 false :: [] ∧ ¬ ((0 : Int) ≤ 2 ∧ (2 : Int) < (sample []).store.length) ∧
    (sample [.release (-1)]).pending = buttonEvent (-1) true :: [] ∧
    ¬ ((0 : Int) ≤ -1 ∧ (-1 : Int) < (sample []).store.length) := by decide

/-- SendAnswerIsOnlyReported, for both answers (60_exceptions R86, R99); its state is witness_router's. -/
theorem witness_send_answers :
    (Report.sendReturned false).error = some .transportSendFailure ∧ (Report.sendReturned true).error = none := by decide

/-- RouterDispatchesButtons and SendAnswerIsOnlyReported: the first and the last button, in a state that meets the invariant;
RouterDispatchesButtons' second clause one past the last. -/
theorem witness_router :
    (sample [.press 0]).Inv ∧ (sample [.press 0]).pending = buttonEvent 0 false :: [] ∧
    (sample []).store[(0 : Int).toNat]? = some ⟨.note, 9, 36⟩ ∧
    (sample [.release 1]).Inv ∧ (sample [.release 1]).pending = buttonEvent 1 true :: [] ∧
    (sample []).store[(1 : Int).toNat]? = some ⟨.controlChange, 3, 20⟩ ∧
    (sample [.press 2]).Inv ∧ ¬ ((0 : Int) ≤ 2 ∧ (2 : Int) < (sample []).store.length) :=
  ⟨sample_inv _, rfl, rfl, sample_inv _, rfl, rfl, sample_inv _, by decide⟩

/-- AttachFollowsItsContract: opened from NO_CONTROLLER, open failed, and already active. -/
theorem witness_attach :
    ({ State.reset with pending := [.attach 7 8 (some 1)] } : State).active = none ∧
    ({ State.reset with pending := [.attach 7 8 none] } : State).pending = .attach 7 8 none :: [] ∧
    (sample [.attach 7 8 (some 1)]).active ≠ none := by decide

/-- DetachFollowsItsContract: matching, another device, and no controller. -/
theorem witness_detach :
    (sample [.detach 7]).active = some ⟨1, 7, 2⟩ ∧ (⟨1, 7, 2⟩ : ActiveController).deviceId = 7 ∧
    (⟨1, 7, 2⟩ : ActiveController).deviceId ≠ 8 ∧ State.reset.active = none := by decide

/-- LifecycleFollowsItsStateMachine: steps into ACTIVE, out of it, and neither. -/
theorem witness_lifecycle :
    (after (step { State.reset with pending := [.attach 7 8 (some 1)] })).map State.lifecycle = some .active ∧
    (after (step (sample [.detach 7]))).map State.lifecycle = some .noController ∧
    (after (step (sample [.press 0]))).map State.lifecycle = some .active ∧
    (after (step State.reset)).map State.lifecycle = some .noController := by decide

/-- StoreChangesOnlyByItsLifecycle: a step of each of the three kinds changes the store. -/
theorem witness_store_changes :
    (after (step { State.reset with pending := [.attach 7 1 (some 1)] })).map State.store ≠ some State.reset.store ∧
    (after (step (sample [.detach 7]))).map State.store ≠ some (sample []).store ∧
    (after (step (sample [.configWrite 1 ⟨.note, 0, 0⟩]))).map State.store ≠ some (sample []).store := by decide

/-- ConfigurationWriteClamps: the last entry, and one past it. -/
theorem witness_configuration_write :
    ((0 : Int) ≤ 1 ∧ (1 : Int) < (sample []).store.length) ∧ ¬ ((0 : Int) ≤ 2 ∧ (2 : Int) < (sample []).store.length) ∧
    refusal (step (sample [.configWrite 2 ⟨.note, 0, 0⟩])) = some (.noSuchEntry 2) := by decide

/-- NextDispatchSeesTheWrite: the last button, written with corner values. -/
theorem witness_write_then_press :
    (0 : Int) ≤ 1 ∧ (1 : Int) < (sample []).store.length ∧ (ButtonConfig.mk .note 15 127).inRange = true ∧
    (sample [.configWrite 1 ⟨.note, 15, 127⟩, .press 1]).pending =
      .configWrite 1 ⟨.note, 15, 127⟩ :: buttonEvent 1 false :: [] := by decide

/-- UnconfiguredButtonsSendTheDefault: the last button of a controller of eight. -/
theorem witness_attach_then_press :
    State.reset.active = none ∧ (0 : Int) ≤ 7 ∧ (7 : Int) < (8 : Nat) ∧
    ({ State.reset with pending := [.attach 7 8 (some 1), .press 7] } : State).pending =
      .attach 7 8 (some 1) :: buttonEvent 7 false :: [] := by decide

/-- DetachedButtonsAreDropped: the release after the detach of 95_test_vectors P3, step 10. -/
theorem witness_detach_then_release :
    (sample [.detach 7, .release 0]).active = some ⟨1, 7, 2⟩ ∧
    (sample [.detach 7, .release 0]).pending = .detach 7 :: buttonEvent 0 true :: [] := by decide

/-- ButtonsBeforeAttachAreDropped: process start with a press pending, and the state after the detach of 95_test_vectors P3 with
the release of step 10 left. -/
theorem witness_buttons_without_controller :
    ({ State.reset with pending := [.press 0] } : State).Inv ∧
    ({ State.reset with pending := [.press 0] } : State).pending = buttonEvent 0 false :: [] ∧
    { sample [.release 0] with active := none, store := [] }.Inv ∧
    (after (step (sample [.detach 7, .release 0]))).map (fun t => (t.active, t.store, t.pending)) =
      some (none, [], buttonEvent 0 true :: []) :=
  ⟨⟨by simp [State.reset], rfl, rfl, by simp [State.reset], rfl, by simp [State.reset]⟩, rfl,
    ⟨by simp, rfl, (sample_inv []).counted, (sample_inv []).historySound, rfl, List.Sublist.refl _⟩, by decide⟩

/-- FailedOpensAreDeviceUnavailable: an open that fails, one that succeeds, and a port open. -/
theorem witness_opens :
    ({ State.reset with pending := [.attach 7 8 none] } : State).active = none ∧
    (after (step { State.reset with pending := [.attach 7 8 none] })).map (fun t => t.reports.map Report.error) =
      some [some .deviceUnavailable] ∧
    (after (step { State.reset with pending := [.attach 7 8 (some 1)] })).map (fun t => t.reports.map Report.error) =
      some [none] ∧
    (sample [.openPort 0]).pending = .openPort 0 :: [] := by decide

/-- EventsAreProcessedInArrivalOrder and BlockKeepsNoHiddenState: two steps on one event over one store, from states with
different histories; HostCallsPresentNothing: a step on a port call, on an attach and on a write. -/
theorem witness_steps_complete :
    (after (step (sample [.press 0, .release 0]))).map State.pending = some [.release 0] ∧
    (after (step { sample [.press 0] with history := [], k := 0 })).map State.messages =
      some [⟨0x99#8, 0x24#8, some 0x5A#8⟩] ∧
    (after (step (sample [.openPort 0]))).map State.k = some 1 ∧
    (after (step (sample [.attach 8 1 none]))).map State.k = some 1 ∧
    (after (step (sample [.configWrite 0 ⟨.note, 1, 1⟩]))).map State.k = some 1 ∧
    (after (step (sample [.command 0x1FFF]))).map State.k = some 2 := by decide

/-- StepRunsThePresentedOperation: the largest word, an encoded operation, the lines and a request. -/
theorem witness_presented :
    (8191 : Nat) < 8192 ∧ encode (.ccRelease 15 127) = some 8191#13 ∧
    (sample [.command 8191]).pending = .command (8191#13 : CmdWord).toNat :: [] ∧
    (sample [.ports ⟨1#1, 15#4, 127#7, 1#1⟩]).pending = .ports ⟨1#1, 15#4, 127#7, 1#1⟩ :: [] ∧
    (sample [.request ⟨.note, 0, 0⟩ false]).pending = .request ⟨.note, 0, 0⟩ false :: [] := by decide

/-- IdleStepKeepsTheState: nothing pending. -/
theorem witness_idle : (sample []).pending = [] := by decide

/-- StepKeepsTheInvariant: a state that meets the invariant and takes a step. -/
theorem witness_step_from_invariant : (sample [.press 0]).Inv ∧ (after (step (sample [.press 0]))).isSome = true :=
  ⟨sample_inv _, by decide⟩

/-- RunsKeepTheInvariant: a state that meets the invariant and completes a run of two steps. -/
theorem witness_run_from_invariant : (sample [.press 0, .detach 7]).Inv ∧
    (after (runFrom 2 (sample [.press 0, .detach 7]))).isSome = true :=
  ⟨sample_inv _, by decide⟩

/-- ButtonRunSendsItsMessages: three notifications, one of them out of bounds. -/
theorem witness_button_run :
    (sample [.press 0, .press 2, .release 1]).Inv ∧
    (sample [.press 0, .press 2, .release 1]).pending =
      [((0 : Int), false), (2, false), (1, true)].map (fun e => buttonEvent e.1 e.2) :=
  ⟨sample_inv _, by decide⟩

/-- EventRunsAgreeWithQueuedRuns, WordStreamsRunForever and ButtonStreamsRunForever: a state that meets the invariant with nothing
pending; and a stream whose run of two events is refused at the second. -/
theorem witness_streams :
    (sample []).Inv ∧ (sample []).pending = [] ∧
    refusal (runEvents (fun n => .command (8191 + n)) 2 (sample [])) = some (.notACommandWord 8192) :=
  ⟨sample_inv [], rfl, by decide⟩

/-- InfiniteRunsHaveOneObservation: an endless run over presses of one button, from a state that meets the invariant with nothing
pending. -/
theorem witness_infinite_run :
    ∃ states : Nat → State, InfiniteRun (fun _ => .press 0) states ∧ (states 0).Inv ∧ (states 0).pending = [] := by
  obtain ⟨states, h0, hrun, -⟩ := infiniteRun_of_progress (events := fun _ => .press 0)
    (P := fun _ t => t.pending = [] ∧ t.store = (sample []).store)
    (fun _ t h => ⟨_, (step_present h.1 _).trans (routeButton_dispatched (cfg := ⟨.note, 9, 36⟩)
      (by simp [State.storeEntry, h.2, sample]) (by decide) false), h.1, h.2⟩) (s := sample []) ⟨rfl, rfl⟩
  exact ⟨states, hrun, h0 ▸ sample_inv [], h0 ▸ rfl⟩

end Sys2Proof.Tests
end

section
/-! PROOFS. The controller and the store (10_state R28, R30): what one step can do to them, said once, and the lifecycle and
store statements drawn from it. -/

namespace Sys2Proof.Machine

/-! ### The lifecycle view -/

theorem lifecycle_eq_noController_iff (s : State) : s.lifecycle = .noController ↔ s.active = none := by
  cases h : s.active <;> simp [State.lifecycle, h]

theorem lifecycle_eq_active_iff (s : State) : s.lifecycle = .active ↔ ∃ a, s.active = some a := by
  cases h : s.active <;> simp [State.lifecycle, h]

/-! ### Steps on an attach and on a detach -/

/-- Every attach completes: its step is the lifecycle manager's one action. -/
theorem step_of_attach {s : State} {d : DeviceId} {n : Nat} {o : Option Handle} {rest : List HostEvent}
    (hp : s.pending = .attach d n o :: rest) : step s = .next (onAttach d n o { s with pending := rest }) :=
  step_of_pending hp

/-- Every detach completes: its step is the lifecycle manager's one action. -/
theorem step_of_detach {s : State} {d : DeviceId} {rest : List HostEvent} (hp : s.pending = .detach d :: rest) :
    step s = .next (onDetach d { s with pending := rest }) :=
  step_of_pending hp

/-- A successful attach from NO_CONTROLLER installs the controller and creates its store (60_exceptions R96). -/
theorem step_attach_opened {s : State} {d : DeviceId} {n : Nat} {h : Handle} {rest : List HostEvent}
    (ha : s.active = none) (hp : s.pending = .attach d n (some h) :: rest) :
    step s = .next (report (.attachReturned d .installed)
      { s with active := some ⟨h, d, n⟩, store := List.replicate n ButtonConfig.default, pending := rest }) := by
  rw [step_of_attach hp, onAttach_of_opened (s := { s with pending := rest }) ha]

/-- In ACTIVE an attach only reports, for the same device too (90_conflicts C6). -/
theorem step_attach_of_active {s : State} {a : ActiveController} {d : DeviceId} {n : Nat} {o : Option Handle}
    {rest : List HostEvent} (ha : s.active = some a) (hp : s.pending = .attach d n o :: rest) :
    step s = .next (report (.attachReturned d .alreadyActive) { s with pending := rest }) := by
  rw [step_of_attach hp, onAttach_of_active (s := { s with pending := rest }) ha]

/-- The matching detach releases the handle and empties the store (60_exceptions R97). -/
theorem step_detach_matching {s : State} {a : ActiveController} {rest : List HostEvent}
    (ha : s.active = some a) (hp : s.pending = .detach a.deviceId :: rest) :
    step s = .next (report (.handleReleased a.handle) { s with active := none, store := [], pending := rest }) := by
  rw [step_of_detach hp, onDetach_of_matching (s := { s with pending := rest }) ha]

/-! ### What one step can do to the controller and the store -/

/-- What a step that processes an event, or none, did to the controller and the store of `s`: the two lifecycle moves, a
configuration write, or nothing. -/
inductive ControllerEffect (s t : State) : Prop where
  /-- A successful attach from NO_CONTROLLER. -/
  | attached (d : DeviceId) (n : Nat) (h : Handle) (rest : List HostEvent)
      (hp : s.pending = .attach d n (some h) :: rest) (ha : s.active = none) (hta : t.active = some ⟨h, d, n⟩)
      (hts : t.store = List.replicate n ButtonConfig.default)
  /-- The detach of the active controller. -/
  | detached (a : ActiveController) (rest : List HostEvent) (hp : s.pending = .detach a.deviceId :: rest)
      (ha : s.active = some a) (hta : t.active = none) (hts : t.store = [])
  /-- A configuration write inside the store. -/
  | written (index : Int) (cfg : ButtonConfig) (rest : List HostEvent) (hp : s.pending = .configWrite index cfg :: rest)
      (h0 : 0 ≤ index) (h1 : index < s.store.length) (hta : t.active = s.active)
      (hts : t.store = s.store.set index.toNat (clampConfig cfg))
  /-- Neither the controller nor the store moved. -/
  | kept (hta : t.active = s.active) (hts : t.store = s.store)

theorem onAttach_controllerEffect {s : State} {d : DeviceId} {n : Nat} {o : Option Handle} {rest : List HostEvent}
    (hp : s.pending = .attach d n o :: rest) : ControllerEffect s (onAttach d n o { s with pending := rest }) := by
  rcases Option.eq_none_or_eq_some s.active with ha | ⟨a, ha⟩
  · cases o with
    | none => rw [onAttach_of_openFailed (s := { s with pending := rest }) ha]; exact .kept rfl rfl
    | some h => rw [onAttach_of_opened (s := { s with pending := rest }) ha]; exact .attached d n h rest hp ha rfl rfl
  · rw [onAttach_of_active (s := { s with pending := rest }) ha]; exact .kept rfl rfl

theorem onDetach_controllerEffect {s : State} {d : DeviceId} {rest : List HostEvent} (hp : s.pending = .detach d :: rest) :
    ControllerEffect s (onDetach d { s with pending := rest }) := by
  rcases Option.eq_none_or_eq_some s.active with ha | ⟨a, ha⟩
  · rw [onDetach_of_none (s := { s with pending := rest }) ha]; exact .kept rfl rfl
  · by_cases hd : a.deviceId = d
    · subst hd
      rw [onDetach_of_matching (s := { s with pending := rest }) ha]; exact .detached a rest hp ha rfl rfl
    · rw [onDetach_of_other (s := { s with pending := rest }) ha hd]; exact .kept rfl rfl

/-- Everything a step that answers a next state did to the controller and the store. -/
theorem step_controllerEffect {s t : State} (hst : step s = .next t) : ControllerEffect s t := by
  obtain ⟨-, rfl⟩ | ⟨e, rest, hp, hev⟩ := step_next hst
  · exact .kept rfl rfl
  · cases handleEvent_next hev with
    | presented => exact .kept rfl rfl
    | dispatched => exact .kept rfl rfl
    | dropped => exact .kept rfl rfl
    | attached d n o he => subst he; exact onAttach_controllerEffect hp
    | detached d he => subst he; exact onDetach_controllerEffect hp
    | written index cfg he h0 h1 => subst he; exact .written index cfg rest hp h0 h1 rfl rfl
    | untouched => exact .kept rfl rfl
    | opened => exact .kept rfl rfl

/-! ### The lifecycle machine (10_state R30) -/

/-- From NO_CONTROLLER a step leads to ACTIVE exactly on a successful attach. -/
theorem step_active_iff_attach_of_none {s t : State} (hst : step s = .next t) (ha : s.active = none) :
    (∃ b, t.active = some b) ↔ ∃ d n h rest, s.pending = .attach d n (some h) :: rest := by
  constructor
  · rintro ⟨b, hb⟩
    cases step_controllerEffect hst with
    | attached d n h rest hp => exact ⟨d, n, h, rest, hp⟩
    | detached _ _ _ _ hta => simp [hta] at hb
    | written _ _ _ _ _ _ hta => simp [hta, ha] at hb
    | kept hta => simp [hta, ha] at hb
  · rintro ⟨d, n, h, rest, hp⟩
    cases (step_attach_opened ha hp).symm.trans hst
    exact ⟨_, rfl⟩

/-- From ACTIVE a step keeps the controller, or it is the matching detach. -/
theorem step_active_of_some {s t : State} {a : ActiveController} (hst : step s = .next t) (ha : s.active = some a) :
    t.active = some a ∨ (t.active = none ∧ ∃ rest, s.pending = .detach a.deviceId :: rest) := by
  cases step_controllerEffect hst with
  | attached _ _ _ _ _ hn => simp [ha] at hn
  | detached b rest hp hb hta =>
    obtain rfl : a = b := Option.some.inj (ha.symm.trans hb)
    exact .inr ⟨hta, rest, hp⟩
  | written _ _ _ _ _ _ hta => exact .inl (hta.trans ha)
  | kept hta => exact .inl (hta.trans ha)

/-- From ACTIVE a step leads to NO_CONTROLLER exactly on the matching detach. -/
theorem step_active_eq_none_iff_detach {s t : State} {a : ActiveController} (hst : step s = .next t)
    (ha : s.active = some a) : t.active = none ↔ ∃ rest, s.pending = .detach a.deviceId :: rest := by
  constructor
  · intro hn
    rcases step_active_of_some hst ha with hta | ⟨-, hp⟩
    · simp [hn] at hta
    · exact hp
  · rintro ⟨rest, hp⟩
    cases (step_detach_matching ha hp).symm.trans hst
    rfl

/-- Settles O38: the iffs read off the inversion `step_controllerEffect` one way and the step equations of attach and detach
the other. -/
theorem lifecycleFollowsItsStateMachine : Obligations.LifecycleFollowsItsStateMachine := by
  refine ⟨rfl, fun s t hst => ⟨fun hs => ?fromNone, fun a ha => ⟨?toNone, fun ht => ?stays, ?ignored⟩⟩, ?processed⟩
  case fromNone =>
    rw [lifecycle_eq_active_iff]
    exact step_active_iff_attach_of_none hst ((lifecycle_eq_noController_iff s).1 hs)
  case toNone => rw [lifecycle_eq_noController_iff, step_active_eq_none_iff_detach hst ha]
  case stays =>
    obtain ⟨b, hb⟩ := (lifecycle_eq_active_iff t).1 ht
    rcases step_active_of_some hst ha with hta | ⟨hn, -⟩
    · exact hta
    · simp [hn] at hb
  case ignored =>
    rintro ⟨d, n, o, rest, hp⟩
    cases (step_attach_of_active ha hp).symm.trans hst
    exact ⟨ha, rfl⟩
  case processed =>
    rintro s d n o rest (hp | hp)
    · exact ⟨_, step_of_attach hp⟩
    · exact ⟨_, step_of_detach hp⟩

/-! ### The store's lifecycle (10_state R28) -/

/-- Settles O39: creation and clearing are the step equations of attach and detach; that nothing else but a configuration
write moves the store is the inversion `step_controllerEffect`. -/
theorem storeChangesOnlyByItsLifecycle : Obligations.StoreChangesOnlyByItsLifecycle := by
  refine fun s t hst => ⟨fun d n h rest ha hp => ?created, fun a rest ha hp => ?cleared, fun hne => ?changed⟩
  case created =>
    cases (step_attach_opened ha hp).symm.trans hst
    rfl
  case cleared =>
    cases (step_detach_matching ha hp).symm.trans hst
    rfl
  case changed =>
    cases step_controllerEffect hst with
    | attached d n h rest hp ha => exact .inl ⟨d, n, h, rest, hp, ha⟩
    | detached a rest hp ha => exact .inr (.inl ⟨a, rest, hp, ha⟩)
    | written index cfg rest hp h0 h1 _ hts => exact .inr (.inr ⟨index, cfg, _, rest, hp, h0, h1, hts⟩)
    | kept _ hts => exact absurd hts hne

end Sys2Proof.Machine
end

section
/-! PROOFS. The length of a message (30_encoding R60): set by the function and the direction alone, and the length statement
drawn from it. -/

namespace Sys2Proof.Machine

/-- Only a pressed NOTE has a data2, so only it has a third byte; no operand enters. -/
theorem messageLength_midiEncode (cfg : ButtonConfig) (d : Bool) :
    messageLength (midiEncode cfg d) = if cfg.function = .note ∧ d = false then 3 else 2 := by
  unfold midiEncode
  split <;> rfl

/-- The length of the message a well-formed operation returns, in any state. -/
theorem blockReturns_messageLength {i : Instr} (h : i.wellFormed = true) (s : State) :
    (blockReturns i s).map messageLength = some (if i.function = .note ∧ i.isRelease = false then 3 else 2) := by
  rw [blockReturns_of_wellFormed h, Option.map_some, messageLength_midiEncode]
  rfl

/-- Settles O26: the ranges make all four operations well formed, and `blockReturns_messageLength` reads each operation's length
off its function and direction. -/
theorem lengthIsSetByTheOperation : Obligations.LengthIsSetByTheOperation := by
  intro c v s hc0 hc1 hv0 hv1
  have hr : (0 ≤ c ∧ c ≤ 15) ∧ 0 ≤ v ∧ v ≤ 127 := ⟨⟨hc0, hc1⟩, hv0, hv1⟩
  exact ⟨blockReturns_messageLength ((Instr.wellFormed_iff (.noteOn c v)).2 hr) s,
    blockReturns_messageLength ((Instr.wellFormed_iff (.noteOff c v)).2 hr) s,
    blockReturns_messageLength ((Instr.wellFormed_iff (.ccPress c v)).2 hr) s,
    blockReturns_messageLength ((Instr.wellFormed_iff (.ccRelease c v)).2 hr) s⟩

end Sys2Proof.Machine
end

section
/-! PROOFS. The status byte (40_encode R68, R76): base and channel meet in it without touching, so its two nibbles are theirs. -/

namespace Sys2Proof.Machine

/-- The message of an in-range operation, as the transaction that every statement about a returned message names. -/
theorem exec_records_of_wellFormed {i : Instr} (h : i.wellFormed = true) (s : State) {P : MidiMessage → Prop}
    (hP : P (midiEncode i.config i.isRelease)) :
    ∃ t m, exec i s = .next t ∧ t.history = s.history ++ [⟨i, m⟩] ∧ P m :=
  ⟨_, _, exec_of_wellFormed h s, recordTransaction_history _ _ _, hP⟩

/-- The same for a structured request. -/
theorem exec_records_of_inRange {cfg : ButtonConfig} (h : cfg.inRange = true) (d : Bool) (s : State)
    {P : MidiMessage → Prop} (hP : P (midiEncode cfg d)) :
    ∃ t m, exec (Instr.ofRequest cfg d) s = .next t ∧ t.history = s.history ++ [⟨Instr.ofRequest cfg d, m⟩] ∧ P m :=
  exec_records_of_wellFormed (by rwa [Instr.ofRequest_wellFormed]) s (by simpa using hP)

/-- The bases as the spec writes them (00_scope R2). -/
theorem baseStatus_eq (f : ButtonFunction) (d : Bool) :
    baseStatus f d = if f = .note then (if d then 0x80#8 else 0x90#8) else 0xB0#8 := by
  cases f <;> cases d <;> rfl

/-- Every base has a zero low nibble. -/
theorem messageChannel_baseStatus (f : ButtonFunction) (d : Bool) : messageChannel (baseStatus f d) = 0#4 := by
  rcases baseStatus_cases f d with h | h | h <;> rw [h] <;> rfl

/-- The message type of each base. -/
theorem messageType_baseStatus (f : ButtonFunction) (d : Bool) :
    messageType (baseStatus f d) = if f = .note then (if d then 0x8#4 else 0x9#4) else 0xB#4 := by
  cases f <;> cases d <;> rfl

/-- No base is above `BASE_CC`. -/
theorem baseStatus_toNat_le (f : ButtonFunction) (d : Bool) : (baseStatus f d).toNat ≤ 0xB0 := by
  rcases baseStatus_cases f d with h | h | h <;> rw [h] <;> decide

/-- The low nibble of a base is zero, as a number. -/
theorem baseStatus_toNat_mod (f : ButtonFunction) (d : Bool) : (baseStatus f d).toNat % 16 = 0 := by
  rw [← messageChannel_toNat, messageChannel_baseStatus]; rfl

theorem midiEncode_status_eq_add {cfg : ButtonConfig} (h : cfg.inRange = true) (d : Bool) :
    (midiEncode cfg d).status = baseStatus cfg.function d + BitVec.ofInt 8 cfg.channel := by
  obtain ⟨⟨h0, h1⟩, -⟩ := (ButtonConfig.inRange_iff cfg).1 h
  rw [← zext8_channelBits h0 h1]; rfl

theorem midiEncode_status_eq_or {cfg : ButtonConfig} (h : cfg.inRange = true) (d : Bool) :
    (midiEncode cfg d).status = baseStatus cfg.function d ||| BitVec.ofInt 8 cfg.channel := by
  obtain ⟨⟨h0, h1⟩, -⟩ := (ButtonConfig.inRange_iff cfg).1 h
  rw [midiEncode_status_eq_add h, ← zext8_channelBits h0 h1, base_add_eq_or]

/-- The channel never carries into the high nibble: the message type is the base's. -/
theorem messageType_midiEncode {cfg : ButtonConfig} (h : cfg.inRange = true) (d : Bool) :
    messageType (midiEncode cfg d).status = messageType (baseStatus cfg.function d) := by
  apply BitVec.eq_of_toNat_eq
  rw [messageType_toNat, messageType_toNat]
  have hs := midiEncode_status_toNat h d
  have hb := baseStatus_toNat_mod cfg.function d
  have hc := ((ButtonConfig.inRange_iff cfg).1 h).1
  omega

/-- The low nibble of the status byte is the channel. -/
theorem messageChannel_midiEncode {cfg : ButtonConfig} (h : cfg.inRange = true) (d : Bool) :
    ((messageChannel (midiEncode cfg d).status).toNat : Int) = cfg.channel := by
  rw [messageChannel_toNat]
  have hs := midiEncode_status_toNat h d
  have hb := baseStatus_toNat_mod cfg.function d
  have hc := ((ButtonConfig.inRange_iff cfg).1 h).1
  omega

theorem midiEncode_status_toNat_le {cfg : ButtonConfig} (h : cfg.inRange = true) (d : Bool) :
    (midiEncode cfg d).status.toNat ≤ 0xBF := by
  have hs := midiEncode_status_toNat h d
  have hb := baseStatus_toNat_le cfg.function d
  have hc := ((ButtonConfig.inRange_iff cfg).1 h).1
  omega

/-- Settles O18: the base's low nibble is zero and the channel has four bits, so addition and OR agree and each nibble keeps what
it was given. -/
theorem statusCarriesTypeAndChannel : Obligations.StatusCarriesTypeAndChannel := by
  intro cfg d s h
  refine exec_records_of_inRange h d s ⟨?_, ?_, ?_, messageChannel_midiEncode h d⟩
  · rw [← baseStatus_eq]; exact midiEncode_status_eq_or h d
  · rw [← baseStatus_eq]; exact midiEncode_status_eq_add h d
  · rw [messageType_midiEncode h, messageType_baseStatus]

/-- Settles O21, with the operation's own base status as the base. -/
theorem channelAdditionNeverCarries : Obligations.ChannelAdditionNeverCarries := by
  intro i s h
  have hcfg := Instr.config_inRange h
  refine exec_records_of_wellFormed h s ⟨baseStatus i.function i.isRelease, ?_, messageChannel_baseStatus _ _,
    midiEncode_status_eq_add hcfg _, midiEncode_status_toNat hcfg _, midiEncode_status_toNat_le hcfg _,
    messageType_midiEncode hcfg _, midiEncode_status_eq_or hcfg _⟩
  rcases baseStatus_cases i.function i.isRelease with hb | hb | hb
  · exact .inr (.inl hb)
  · exact .inl hb
  · exact .inr (.inr hb)

end Sys2Proof.Machine
end

section
/-! PROOFS. The data bytes (40_encode R69, R70), and the properties the source states of the whole message (40_encode R77). -/

namespace Sys2Proof.Machine

/-- Settles O19: data1 is the value as a number, and a value of at most 127 leaves bit 7 clear. -/
theorem dataOneIsTheValue : Obligations.DataOneIsTheValue := by
  intro i s h
  have hdata := midiEncode_data1_toNat (Instr.config_inRange h) i.isRelease
  have hle : i.config.value ≤ 127 := ((Instr.wellFormed_iff i).1 h).2.2
  refine exec_records_of_wellFormed h s ⟨?_, (startsMessage_eq_false_iff _).2 (by omega)⟩
  calc (((midiEncode i.config i.isRelease).data1.extractLsb' 0 7).toNat : Int)
      = ((midiEncode i.config i.isRelease).data1.toNat % 128 : Nat) := by simp
    _ = i.config.value := by omega

/-- Only NOTE_ON has a data2. -/
theorem midiEncode_data2_isSome_iff (i : Instr) :
    (midiEncode i.config i.isRelease).data2.isSome = true ↔ ∃ c v, i = .noteOn c v := by
  cases i <;> simp [midiEncode, Instr.config, Instr.function, Instr.isRelease]

/-- A data2 is the fixed velocity: no field of the configuration enters. -/
theorem midiEncode_data2_eq_some {cfg : ButtonConfig} {d : Bool} {b : Byte} (hb : (midiEncode cfg d).data2 = some b) :
    b = noteOnVelocity := by
  unfold midiEncode at hb
  split at hb
  · exact (Option.some.inj hb).symm
  · cases hb

/-- Settles O20: a data2 is there exactly when the operation is a NOTE_ON, and it is the fixed velocity, ninety in either
notation. -/
theorem velocityOnlyInNoteOn : Obligations.VelocityOnlyInNoteOn := fun i s h =>
  exec_records_of_wellFormed h s ⟨midiEncode_data2_isSome_iff i, fun _ hb =>
    ⟨midiEncode_data2_eq_some hb, midiEncode_data2_eq_some hb⟩⟩

/-- Masking the low nibble of the status byte gives the channel's byte. -/
theorem midiEncode_status_and_lowNibble {cfg : ButtonConfig} (h : cfg.inRange = true) (d : Bool) :
    (midiEncode cfg d).status &&& 0x0F#8 = BitVec.ofInt 8 cfg.channel := by
  rw [and_lowNibble, ← messageChannel_toNat, ← messageChannel_midiEncode h d, BitVec.ofInt_natCast]

/-- Masking the high nibble of the status byte gives the base. -/
theorem midiEncode_status_and_highNibble {cfg : ButtonConfig} (h : cfg.inRange = true) (d : Bool) :
    (midiEncode cfg d).status &&& 0xF0#8 = baseStatus cfg.function d := by
  rw [and_highNibble, ← messageType_toNat, messageType_midiEncode h]
  rcases baseStatus_cases cfg.function d with hb | hb | hb <;> rw [hb] <;> rfl

/-- Settles O22: the masks of the press, the lengths of both directions, and data1 as the value. -/
theorem sourcePropertiesHold : Obligations.SourcePropertiesHold := by
  intro cfg s h
  refine ⟨_, _, blockReturns_ofRequest h false s, blockReturns_ofRequest h true s,
    midiEncode_status_and_lowNibble h false, ?_, fun hf => ⟨?_, ?_⟩,
    midiEncode_data1_toNat h false, midiEncode_data1_toNat h true⟩
  · rw [midiEncode_status_and_highNibble h, baseStatus_eq]; rfl
  · simp [messageLength_midiEncode, hf]
  · simp [messageLength_midiEncode]

end Sys2Proof.Machine
end

section
/-! PROOFS. The encoder's domain and its totality (40_encode R79): the in-range requests are counted by the command words they
pack to. -/

namespace Sys2Proof.Machine

/-- Packing a word's own operation gives the word back. -/
theorem decode_ports_pack (w : CmdWord) : (decode w).ports.pack = w := by
  rw [decode_eq_instr, PortInputs.instr_ports]; exact packFields_fields w

/-- The in-range structured requests and the command words are the same thing twice (30_encoding R51, R57). -/
def requestEquivCmdWord : { request : ButtonConfig × Bool // request.1.inRange = true } ≃ CmdWord where
  toFun r := (Instr.ofRequest r.1.1 r.1.2).ports.pack
  invFun w := ⟨((decode w).config, (decode w).isRelease), Instr.config_inRange (decode_wellFormed w)⟩
  left_inv := fun ⟨⟨cfg, d⟩, h⟩ => by
    have hw : (Instr.ofRequest cfg d).wellFormed = true := by rwa [Instr.ofRequest_wellFormed]
    simp [Instr.ports_instr hw]
  right_inv w := by simp [decode_ports_pack]

theorem card_inRange_requests : Nat.card { request : ButtonConfig × Bool // request.1.inRange = true } = 8192 := by
  rw [Nat.card_congr (requestEquivCmdWord.trans BitVec.equivFin.toEquiv), Nat.card_fin]; rfl

/-- Settles O24: the requests are counted by their words; an in-range request completes, and any message its history could have
gained is the one recorded. -/
theorem encoderIsTotal : Obligations.EncoderIsTotal := by
  refine ⟨card_inRange_requests, fun cfg d s h => ?_⟩
  have hw : (Instr.ofRequest cfg d).wellFormed = true := by rwa [Instr.ofRequest_wellFormed]
  refine ⟨_, ⟨_, exec_of_wellFormed hw s, recordTransaction_history _ _ _⟩, ?_⟩
  rintro m ⟨t, ht, hm⟩
  obtain ⟨-, rfl⟩ := exec_next ht
  simpa using hm.symm

end Sys2Proof.Machine
end

section
/-! PROOFS. The router's dispatch (60_exceptions R98): the step equations of an in-bounds and of an out-of-bounds notification,
and the dispatch statement drawn from them. -/

namespace Sys2Proof.Machine

/-- In bounds, a step makes the entry's transaction and forwards its message: the invariant keeps every entry in the encoder's
domain, so nothing is refused. -/
theorem step_button_dispatched {s : State} {index : Int} {d : Bool} {cfg : ButtonConfig} {rest : List HostEvent}
    (hinv : s.Inv) (hp : s.pending = buttonEvent index d :: rest) (he : s.storeEntry index = some cfg) :
    step s = .next (sendMessage (midiEncode cfg d)
      (recordTransaction (Instr.ofRequest cfg d) (midiEncode cfg d) { s with pending := rest })) := by
  obtain ⟨-, -, -, hmem⟩ := storeEntry_some he
  rw [step_of_buttonEvent hp, routeButton_dispatched (by rwa [storeEntry_setPending]) (hinv.storeInRange cfg hmem)]

/-- Out of bounds, a step only reports the dropped notification (60_exceptions R88). -/
theorem step_button_dropped {s : State} {index : Int} {d : Bool} {rest : List HostEvent}
    (hp : s.pending = buttonEvent index d :: rest) (hb : ¬ (0 ≤ index ∧ index < s.store.length)) :
    step s = .next (report (.buttonDropped index d) { s with pending := rest }) := by
  rw [step_of_buttonEvent hp, routeButton_dropped]
  rwa [storeEntry_setPending, storeEntry_eq_none_iff]

/-- Settles O34: the two step equations, read at the history and at the sends. -/
theorem routerDispatchesButtons : Obligations.RouterDispatchesButtons := by
  refine fun s index d rest hinv hp => ⟨fun cfg h0 hcfg => ?dispatched, fun hb => ?dropped⟩
  case dispatched =>
    exact ⟨_, _, step_button_dispatched hinv hp (storeEntry_of_getElem? h0 hcfg), rfl, rfl, rfl⟩
  case dropped => exact ⟨_, step_button_dropped hp hb, rfl, rfl⟩

end Sys2Proof.Machine
end

section
/-! PROOFS. Command words (30_encoding R51 to R57): what decoding reads off a word, and that packing undoes it. -/

namespace Sys2Proof.Machine

/-! ### The two directions -/

/-- Settles O4: a well-formed operation is read back from its port lines, and a word's own operation packs to the word. -/
theorem decodeInvertsEncode : Obligations.DecodeInvertsEncode := by
  refine ⟨fun i h => ⟨_, encode_of_wellFormed h, ?_⟩, fun cmd => ?_⟩
  · rw [PortInputs.decode_pack, Instr.ports_instr h]
  · rw [encode_of_wellFormed (decode_wellFormed cmd), decode_ports_pack]

/-- The word of a well-formed operation, whose number is the sum of its fields at their places. -/
theorem encode_eq_ofInt {i : Instr} (h : i.wellFormed = true) :
    encode i = some (BitVec.ofInt 13 ((if i.isRelease then 4096 else 0) +
      (if i.function = .controlChange then 2048 else 0) + i.channel * 128 + i.value)) := by
  rw [encode_of_wellFormed h, ← Instr.ports_pack_toNat h, BitVec.ofInt_natCast, BitVec.ofNat_toNat, BitVec.setWidth_eq]

/-- Settles O2: the number of a packed word, and the default request at its zero fields. -/
theorem commandWordPacksTheFields : Obligations.CommandWordPacksTheFields := by
  refine ⟨fun f c v r hc0 hc1 hv0 hv1 => ?_, by decide⟩
  have h : (Instr.ofRequest ⟨f, c, v⟩ r).wellFormed = true := by
    rw [Instr.ofRequest_wellFormed, ButtonConfig.inRange_iff]
    exact ⟨⟨hc0, hc1⟩, hv0, hv1⟩
  exact ⟨_, encode_of_wellFormed h, by simpa using Instr.ports_pack_toNat h⟩

/-! ### The fields of a decoded word -/

theorem decode_isRelease (cmd : CmdWord) : (decode cmd).isRelease = (fieldRelease cmd == 1#1) :=
  Instr.ofRequest_isRelease _ _

theorem decode_function (cmd : CmdWord) : (decode cmd).function = functionOfBit (fieldFunction cmd) :=
  Instr.ofRequest_function _ _

theorem decode_channel (cmd : CmdWord) : (decode cmd).channel = ((cmd.toNat / 128 % 16 : Nat) : Int) := by
  rw [← fieldChannel_toNat]; exact Instr.ofRequest_channel _ _

theorem decode_value (cmd : CmdWord) : (decode cmd).value = ((cmd.toNat % 128 : Nat) : Int) := by
  rw [← fieldValue_toNat]; exact Instr.ofRequest_value _ _

/-- Settles O3: one lemma for each of the four fields. -/
theorem fieldExtractionFollowsTheLayout : Obligations.FieldExtractionFollowsTheLayout := by
  refine fun cmd => ⟨?_, ?_, decode_channel cmd, decode_value cmd⟩
  · rw [decode_isRelease, beq_iff_eq, fieldRelease_eq_one_iff]
  · rw [decode_function, functionOfBit_eq_controlChange_iff, fieldFunction_eq_one_iff]

/-! ### Which numbers and operations have a counterpart -/

/-- Settles O6: decoding is total on 13-bit numbers, and only well-formed operations are packed. -/
theorem everyCommandWordDecodes : Obligations.EveryCommandWordDecodes := by
  refine ⟨fun n hn => ⟨_, decodeNumber_of_lt hn, decode_wellFormed _⟩, fun i h => ?_⟩
  exact if_neg (by simp [h])

/-- Settles O1, by evaluating the decoder on the eight words. -/
theorem sampleWordsDecodeAsListed : Obligations.SampleWordsDecodeAsListed := by
  unfold Obligations.SampleWordsDecodeAsListed
  decide

/-- Settles O7: the number is refused where it is presented, before anything is decoded. -/
theorem wideNumberIsRefused : Obligations.WideNumberIsRefused := by
  intro n s rest hn hp
  have hge : ¬ n < 8192 := by omega
  exact ⟨decodeNumber_of_ge hge, (step_of_pending hp).trans (presentWord_of_ge hge _)⟩

/-! ### The interfaces of the block (30_encoding section 2, 10_state R24) -/

/-- A step with a word pending runs what the word decodes to. -/
theorem step_of_command {s : State} {n : Nat} {rest : List HostEvent} (hn : n < 8192)
    (hp : s.pending = .command n :: rest) :
    step s = exec (decode (BitVec.ofNat 13 n)) { s with pending := rest } :=
  (step_of_pending hp).trans (presentWord_of_lt hn _)

/-- A step with port lines pending runs the operation they present. -/
theorem step_of_ports {s : State} {lines : PortInputs} {rest : List HostEvent} (hp : s.pending = .ports lines :: rest) :
    step s = exec lines.instr { s with pending := rest } :=
  step_of_pending hp

/-- Only a well-formed operation is packed, and its word decodes to it. -/
theorem decode_of_encode {i : Instr} {cmd : CmdWord} (h : encode i = some cmd) : decode cmd = i := by
  cases hw : i.wellFormed with
  | true =>
    obtain ⟨w, hw', hd⟩ := decodeInvertsEncode.1 i hw
    cases hw'.symm.trans h
    exact hd
  | false => cases (everyCommandWordDecodes.2 i hw).symm.trans h

/-- Settles O48: the step equation of each interface; an encoded operation is what its own word decodes to. -/
theorem stepRunsThePresentedOperation : Obligations.StepRunsThePresentedOperation := by
  refine fun s rest => ⟨fun word hw hp => step_of_command hw hp, fun i cmd hi hp => ?encoded, fun lines hp => ?lines,
    fun cfg d hp => step_of_pending hp⟩
  case encoded => rw [step_of_command cmd.isLt hp, BitVec.ofNat_toNat, BitVec.setWidth_eq, decode_of_encode hi]
  case lines => rw [step_of_ports hp, PortInputs.decode_pack]

end Sys2Proof.Machine
end

section
/-! PROOFS. The messages of the four operations (40_encode R67, R72 to R78), byte by byte. -/

namespace Sys2Proof.Machine

/-! ### The bytes of a message of the common definition -/

/-- The ordered bytes of a message (20_memory R34): only a pressed NOTE has the third. -/
theorem messageBytes_midiEncode (cfg : ButtonConfig) (d : Bool) :
    messageBytes (midiEncode cfg d) = (midiEncode cfg d).status :: (midiEncode cfg d).data1 ::
      if cfg.function = .note ∧ d = false then [noteOnVelocity] else [] := by
  unfold midiEncode
  split <;> rfl

theorem midiEncode_status_eq_ofInt {cfg : ButtonConfig} (h : cfg.inRange = true) (d : Bool) :
    (midiEncode cfg d).status = BitVec.ofInt 8 ((baseStatus cfg.function d).toNat + cfg.channel) :=
  byte_eq_ofInt (midiEncode_status_toNat h d)

theorem midiEncode_data1_eq_ofInt {cfg : ButtonConfig} (h : cfg.inRange = true) (d : Bool) :
    (midiEncode cfg d).data1 = BitVec.ofInt 8 cfg.value :=
  byte_eq_ofInt (midiEncode_data1_toNat h d)

/-- The direction of a CONTROL_CHANGE does not reach the bytes (D8). -/
theorem midiEncode_of_controlChange {cfg : ButtonConfig} (h : cfg.function = .controlChange) (d e : Bool) :
    midiEncode cfg d = midiEncode cfg e := by
  simp [midiEncode, h, baseStatus]

/-! ### Bit 7 of each byte (30_encoding R66) -/

theorem baseStatus_toNat_ge (f : ButtonFunction) (d : Bool) : 0x80 ≤ (baseStatus f d).toNat := by
  rcases baseStatus_cases f d with h | h | h <;> rw [h] <;> decide

theorem startsMessage_status {cfg : ButtonConfig} (h : cfg.inRange = true) (d : Bool) :
    startsMessage (midiEncode cfg d).status = true := by
  rw [startsMessage_iff]
  have hs := midiEncode_status_toNat h d
  have hb := baseStatus_toNat_ge cfg.function d
  have hc := ((ButtonConfig.inRange_iff cfg).1 h).1
  omega

theorem startsMessage_data1 {cfg : ButtonConfig} (h : cfg.inRange = true) (d : Bool) :
    startsMessage (midiEncode cfg d).data1 = false := by
  rw [startsMessage_eq_false_iff]
  have hs := midiEncode_data1_toNat h d
  have hv := ((ButtonConfig.inRange_iff cfg).1 h).2
  omega

theorem startsMessage_data2 {cfg : ButtonConfig} {d : Bool} {b : Byte} (hb : (midiEncode cfg d).data2 = some b) :
    startsMessage b = false := by
  rw [midiEncode_data2_eq_some hb]; rfl

/-- Every message of an in-range request is well formed. -/
theorem messageWellFormed_midiEncode {cfg : ButtonConfig} (h : cfg.inRange = true) (d : Bool) :
    messageWellFormed (midiEncode cfg d) = true := by
  simp only [messageWellFormed, startsMessage_status h, startsMessage_data1 h]
  cases hd : (midiEncode cfg d).data2 with
  | none => rfl
  | some b => simp [startsMessage_data2 hd]

/-- Settles O25: bit 7 of each byte, then the message type as the base's, then the length. -/
theorem messagesAreWellFormed : Obligations.MessagesAreWellFormed := by
  intro i s h
  have hcfg := Instr.config_inRange h
  refine ⟨_, blockReturns_of_wellFormed h s, startsMessage_status hcfg _, startsMessage_data1 hcfg _,
    fun _ => startsMessage_data2, ?type, ?length⟩
  case type =>
    rw [messageType_midiEncode hcfg]
    rcases baseStatus_cases i.config.function i.isRelease with hb | hb | hb <;> rw [hb] <;> decide
  case length =>
    rw [messageLength_midiEncode]
    split
    · exact .inr rfl
    · exact .inl rfl

/-! ### The whole effect of an operation -/

/-- The lines of an operation, field by field (10_state R24). -/
theorem instr_ports_eq (i : Instr) :
    i.ports = { function := if i.function = .note then 0#1 else 1#1
                channel := BitVec.ofInt 4 i.channel
                value := BitVec.ofInt 7 i.value
                isRelease := if i.isRelease then 1#1 else 0#1 } := by
  cases i <;> rfl

/-- Settles O16: `recordTransaction` is the whole effect, and the lines are `instr_ports_eq`. -/
theorem operationChangesOnlyItsTransaction : Obligations.OperationChangesOnlyItsTransaction := by
  intro i s h
  refine ⟨midiEncode i.config i.isRelease, ?_⟩
  rw [exec_of_wellFormed h, recordTransaction, instr_ports_eq]

/-- Settles O17: the bytes of the common definition, branch by branch. -/
theorem meaningsRefineEncode : Obligations.MeaningsRefineEncode := by
  intro cfg d s h
  refine exec_records_of_inRange h d s ?_
  rw [messageBytes_midiEncode, midiEncode_status_eq_add h, midiEncode_data1_eq_ofInt h]
  rcases cfg with ⟨_ | _, c, v⟩ <;> cases d <;> rfl

/-- The bytes a well-formed operation returns, as numbers. -/
theorem messageBytes_of_wellFormed {i : Instr} (h : i.wellFormed = true) :
    messageBytes (midiEncode i.config i.isRelease) =
      BitVec.ofInt 8 ((baseStatus i.function i.isRelease).toNat + i.channel) :: BitVec.ofInt 8 i.value ::
        if i.function = .note ∧ i.isRelease = false then [noteOnVelocity] else [] := by
  have hcfg := Instr.config_inRange h
  rw [messageBytes_midiEncode, midiEncode_status_eq_ofInt hcfg, midiEncode_data1_eq_ofInt hcfg]
  rfl

/-- An operation with its operands between their bounds is well formed. -/
theorem wellFormed_of_bounds {i : Instr} (hc0 : 0 ≤ i.channel) (hc1 : i.channel ≤ 15) (hv0 : 0 ≤ i.value)
    (hv1 : i.value ≤ 127) : i.wellFormed = true :=
  (Instr.wellFormed_iff i).2 ⟨⟨hc0, hc1⟩, hv0, hv1⟩

/-- What the four operations' own rules (40_encode R72 to R75) ask: the word of the request, the message by its bytes, and the
frame, that nothing but the transaction's own record changes. -/
theorem word_bytes_and_frame {i : Instr} (h : i.wellFormed = true) (s : State) {n : Int}
    (hn : (if i.isRelease then 4096 else 0) + (if i.function = .controlChange then 2048 else 0) +
      i.channel * 128 + i.value = n) :
    encode i = some (BitVec.ofInt 13 n) ∧
    ∃ t m, exec i s = .next t ∧ t.history = s.history ++ [⟨i, m⟩] ∧
      messageBytes m = (BitVec.ofInt 8 ((baseStatus i.function i.isRelease).toNat + i.channel) :: BitVec.ofInt 8 i.value ::
        if i.function = .note ∧ i.isRelease = false then [noteOnVelocity] else []) ∧
      ({ t with k := s.k, inputs := s.inputs, history := s.history } : State) = s :=
  ⟨hn ▸ encode_eq_ofInt h, _, _, exec_of_wellFormed h s, rfl, messageBytes_of_wellFormed h, rfl⟩

/-- Settles O12: base 0x90, and the one operation with a third byte. -/
theorem noteOnReturnsThreeBytes : Obligations.NoteOnReturnsThreeBytes := fun c v s hc0 hc1 hv0 hv1 =>
  word_bytes_and_frame (i := .noteOn c v) (wellFormed_of_bounds hc0 hc1 hv0 hv1) s
    (by simp [Instr.isRelease, Instr.function, Instr.channel, Instr.value])

/-- Settles O13: base 0x80, and the direction bit in the word. -/
theorem noteOffReturnsTwoBytes : Obligations.NoteOffReturnsTwoBytes := fun c v s hc0 hc1 hv0 hv1 =>
  word_bytes_and_frame (i := .noteOff c v) (wellFormed_of_bounds hc0 hc1 hv0 hv1) s
    (by simp [Instr.isRelease, Instr.function, Instr.channel, Instr.value])

/-- Settles O14: base 0xB0, and the function bit in the word. -/
theorem ccPressReturnsTwoBytes : Obligations.CcPressReturnsTwoBytes := fun c v s hc0 hc1 hv0 hv1 =>
  word_bytes_and_frame (i := .ccPress c v) (wellFormed_of_bounds hc0 hc1 hv0 hv1) s
    (by simp [Instr.isRelease, Instr.function, Instr.channel, Instr.value])

/-- Settles O15: base 0xB0 as on press, and both bits in the word. -/
theorem ccReleaseReturnsTwoBytes : Obligations.CcReleaseReturnsTwoBytes := fun c v s hc0 hc1 hv0 hv1 =>
  word_bytes_and_frame (i := .ccRelease c v) (wellFormed_of_bounds hc0 hc1 hv0 hv1) s
    (by simp [Instr.isRelease, Instr.function, Instr.channel, Instr.value])

/-! ### Selection and expansion (30_encoding R56, R64) -/

/-- Settles O8: the selection by definition, and one message for both directions of a CONTROL_CHANGE. -/
theorem structuredRequestSelectsTheOperation : Obligations.StructuredRequestSelectsTheOperation := by
  refine fun c v => ⟨rfl, rfl, rfl, rfl, fun hc0 hc1 hv0 hv1 s => ?_⟩
  have press := exec_of_wellFormed (i := .ccPress c v) (wellFormed_of_bounds hc0 hc1 hv0 hv1) s
  have release := exec_of_wellFormed (i := .ccRelease c v) (wellFormed_of_bounds hc0 hc1 hv0 hv1) s
  exact ⟨_, _, midiEncode ⟨.controlChange, c, v⟩ false, press, rfl, release, rfl⟩

/-- Settles O10: by the function and the direction. -/
theorem pseudoOperationsExpand : Obligations.PseudoOperationsExpand := by
  intro f c v d
  cases f with
  | note => exact ⟨rfl, rfl, rfl, by cases d <;> rfl⟩
  | controlChange => exact ⟨rfl, rfl, rfl, by cases d <;> rfl⟩

/-! ### Which requests share a message (40_encode R78) -/

/-- A base determines the function, and the direction of a NOTE. -/
theorem baseStatus_eq_iff (f g : ButtonFunction) (d e : Bool) :
    baseStatus f d = baseStatus g e ↔ f = g ∧ (d = e ∨ f = .controlChange) := by
  cases f <;> cases g <;> cases d <;> cases e <;> decide

/-- Two in-range requests share a message only as the two directions of one CONTROL_CHANGE. -/
theorem midiEncode_eq_iff {cfg other : ButtonConfig} (h : cfg.inRange = true) (ho : other.inRange = true) (d e : Bool) :
    midiEncode cfg d = midiEncode other e ↔ cfg = other ∧ (d = e ∨ cfg.function = .controlChange) := by
  constructor
  · intro heq
    have hbase : baseStatus cfg.function d = baseStatus other.function e := by
      rw [← midiEncode_status_and_highNibble h, ← midiEncode_status_and_highNibble ho, heq]
    have hchannel : cfg.channel = other.channel := by
      rw [← messageChannel_midiEncode h d, ← messageChannel_midiEncode ho e, heq]
    have hvalue : cfg.value = other.value := by
      rw [← midiEncode_data1_toNat h d, ← midiEncode_data1_toNat ho e, heq]
    obtain ⟨hfunction, hdir⟩ := (baseStatus_eq_iff _ _ _ _).1 hbase
    rcases cfg with ⟨f, c, v⟩
    rcases other with ⟨g, c', v'⟩
    exact ⟨by rw [ButtonConfig.mk.injEq]; exact ⟨hfunction, hchannel, hvalue⟩, hdir⟩
  · rintro ⟨rfl, rfl | hf⟩
    · rfl
    · exact midiEncode_of_controlChange hf d e

/-- Settles O23: nibbles of the status byte, the length, and `midiEncode_eq_iff`. -/
theorem messagesIdentifyTheirRequests : Obligations.MessagesIdentifyTheirRequests := by
  intro cfg other d e s h ho
  refine ⟨_, _, blockReturns_ofRequest h d s, blockReturns_ofRequest ho e s,
    fun hd => ⟨midiEncode_status_and_lowNibble h d, ?release⟩, ?length, midiEncode_eq_iff h ho d e⟩
  case release =>
    rw [midiEncode_status_and_highNibble h, hd]
    cases cfg.function with
    | note => exact .inl rfl
    | controlChange => exact .inr rfl
  case length =>
    rw [messageLength_midiEncode]
    split
    next hnote => exact ⟨fun _ => hnote, fun _ => rfl⟩
    next hother => exact ⟨fun h3 => (by cases h3), fun hnote => absurd hnote hother⟩

end Sys2Proof.Machine
end

section
/-! PROOFS. The two opcode bits (30_encoding R54, R55): the row of the opcode table they select, the base status they pick, and
the direction bit of a CONTROL_CHANGE word, which no byte shows. -/

namespace Sys2Proof.Machine

/-! ### The opcode table -/

theorem opcodeTable_mask {row : OpcodeRow} (h : row ∈ opcodeTable) : row.mask = 0x1800#13 := by
  revert row; decide

/-- No two rows have one pattern. -/
theorem opcodeTable_pattern_inj {row other : OpcodeRow} (h : row ∈ opcodeTable) (ho : other ∈ opcodeTable)
    (heq : other.pattern = row.pattern) : other = row := by
  have table : ∀ row ∈ opcodeTable, ∀ other ∈ opcodeTable, other.pattern = row.pattern → other = row := by decide
  exact table row h other ho heq

/-- Each pair of opcode bits is the pattern of a row, the one of the operation they select. -/
theorem exists_opcodeRow (cmd : CmdWord) :
    ∃ row ∈ opcodeTable, row.pattern = packFields (fieldRelease cmd) (fieldFunction cmd) 0#4 0#7 ∧
      (decode cmd).mnemonic = row.mnemonic ∧
      row.messageLength = if (decode cmd).function = .note ∧ (decode cmd).isRelease = false then 3 else 2 := by
  rw [decode]
  rcases bit_cases (fieldRelease cmd) with hr | hr <;> rcases bit_cases (fieldFunction cmd) with hf | hf <;> rw [hr, hf]
  · exact ⟨⟨"NOTE_ON", 0x0000#13, 0x1800#13, 3⟩, by decide, rfl, rfl, rfl⟩
  · exact ⟨⟨"CC_PRESS", 0x0800#13, 0x1800#13, 2⟩, by decide, rfl, rfl, rfl⟩
  · exact ⟨⟨"NOTE_OFF", 0x1000#13, 0x1800#13, 2⟩, by decide, rfl, rfl, rfl⟩
  · exact ⟨⟨"CC_RELEASE", 0x1800#13, 0x1800#13, 2⟩, by decide, rfl, rfl, rfl⟩

/-- Settles O5: all masks keep the opcode bits alone, so a row selects a word exactly when its pattern is those bits. -/
theorem opcodeTableSelectsOneOperation : Obligations.OpcodeTableSelectsOneOperation := by
  refine ⟨rfl, fun cmd => ?_⟩
  obtain ⟨row, hmem, hpattern, hname, hlength⟩ := exists_opcodeRow cmd
  refine ⟨row, hmem, ?selects, hname, fun other ho hsel => ?unique, fun s => ?message⟩
  case selects => rw [opcodeTable_mask hmem, and_opcodeMask, hpattern]
  case unique =>
    rw [opcodeTable_mask ho, and_opcodeMask, ← hpattern] at hsel
    exact opcodeTable_pattern_inj hmem ho hsel.symm
  case message =>
    refine exec_records_of_wellFormed (decode_wellFormed cmd) s ?_
    rw [messageLength_midiEncode, hlength]; rfl

/-! ### The base status -/

/-- `cmd[12:11]` is the direction bit before the function bit. -/
theorem opcodeBits_eq (cmd : CmdWord) : cmd.extractLsb' 11 2 = fieldRelease cmd ++ fieldFunction cmd := by
  have hcmd := cmd.isLt
  apply BitVec.eq_of_toNat_eq
  rw [BitVec.toNat_append, ← Nat.shiftLeft_add_eq_or_of_lt (fieldFunction cmd).isLt, fieldRelease_toNat,
    fieldFunction_toNat]
  simp only [BitVec.extractLsb'_toNat, Nat.shiftRight_eq_div_pow, Nat.shiftLeft_eq]
  omega

/-- The base status of a decoded word, read off its opcode bits. -/
theorem baseStatus_decode (cmd : CmdWord) :
    baseStatus (decode cmd).function (decode cmd).isRelease =
      if cmd.extractLsb' 11 2 = 0b00#2 then 0x90#8
      else if cmd.extractLsb' 11 2 = 0b10#2 then 0x80#8
      else 0xB0#8 := by
  rw [opcodeBits_eq, decode_function, decode_isRelease]
  rcases bit_cases (fieldRelease cmd) with hr | hr <;> rcases bit_cases (fieldFunction cmd) with hf | hf <;>
    rw [hr, hf] <;> rfl

/-- Settles O9: the high nibble is the base, the low nibble the channel field. -/
theorem opcodeBitsPickTheBaseStatus : Obligations.OpcodeBitsPickTheBaseStatus := by
  intro cmd s
  have h := decode_wellFormed cmd
  have hcfg := Instr.config_inRange h
  refine exec_records_of_wellFormed h s ⟨?base, ?channel⟩
  case base => rw [midiEncode_status_and_highNibble hcfg, ← baseStatus_decode]; rfl
  case channel =>
    rw [midiEncode_status_and_lowNibble hcfg, show (decode cmd).config.channel = (decode cmd).channel from rfl,
      decode_channel, BitVec.ofInt_natCast, BitVec.toNat_ofNat]
    omega

/-! ### The direction bit of a CONTROL_CHANGE word -/

/-- Flipping `cmd[12]` leaves the configuration and turns the direction. -/
theorem decode_flipRelease_config (cmd : CmdWord) : (decode (cmd ^^^ 0x1000#13)).config = (decode cmd).config := by
  rw [decode_flipRelease, decode, Instr.ofFields, Instr.ofFields, Instr.ofRequest_config, Instr.ofRequest_config]

theorem decode_flipRelease_isRelease (cmd : CmdWord) :
    (decode (cmd ^^^ 0x1000#13)).isRelease = !(decode cmd).isRelease := by
  rw [decode_flipRelease, decode_isRelease, Instr.ofFields, Instr.ofRequest_isRelease]
  rcases bit_cases (fieldRelease cmd) with hr | hr <;> rw [hr] <;> rfl

/-- Settles O29: one configuration, two directions, and the direction of a CONTROL_CHANGE reaches no byte. -/
theorem ccDirectionIsInvisible : Obligations.CcDirectionIsInvisible := by
  intro cmd s h
  have hcc : (decode cmd).function = .controlChange := ((fieldExtractionFollowsTheLayout cmd).2.1).2 h
  refine ⟨_, blockReturns_of_wellFormed (decode_wellFormed _) s, ?same, fun heq => ?different⟩
  case same =>
    rw [blockReturns_of_wellFormed (decode_wellFormed _), decode_flipRelease_config, midiEncode_of_controlChange hcc]
  case different =>
    have := decode_flipRelease_isRelease cmd
    rw [← heq] at this
    simp at this

end Sys2Proof.Machine
end

section
/-! PROOFS. What one step can do to the block's part of the state, said once, and the invariant drawn from it. -/

namespace Sys2Proof.Machine

/-! ### The block's part of the state -/

/-- `t` has the index, the lines, the transactions and the sends of `s`: no request reached the block between them. -/
structure SameBlock (s t : State) : Prop where
  k : t.k = s.k
  inputs : t.inputs = s.inputs
  history : t.history = s.history
  sends : t.sends = s.sends

/-- A frame that lets only the controller, the store and the reports move. -/
theorem SameBlock.of_frame {s t : State}
    (h : ({ t with active := s.active, store := s.store, reports := s.reports } : State) = s) : SameBlock s t :=
  ⟨(congrArg State.k h :), (congrArg State.inputs h :), (congrArg State.history h :), (congrArg State.sends h :)⟩

/-- What a step on the event `e` did to the block's part of `s`: the one transaction of the request it brings, forwarded if a
button brought it, or nothing. -/
inductive BlockEffect (s : State) (e : HostEvent) (t : State) : Prop where
  /-- The event brings no request. -/
  | idle (hr : requestOf s e = none) (hb : SameBlock s t)
  /-- The event brings a request, which is in range. -/
  | transaction (i : Instr) (hr : requestOf s e = some i) (hw : i.wellFormed = true) (hk : t.k = s.k + 1)
      (hi : t.inputs = some i.ports) (hh : t.history = s.history ++ [transactionOf i])
      (hbutton : (∃ index d, e = buttonEvent index d) → t.sends = s.sends ++ [(transactionOf i).message])
      (hdirect : (∀ index d, e ≠ buttonEvent index d) → t.sends = s.sends)

/-- A structured request's transaction is its own message. -/
theorem transactionOf_ofRequest (cfg : ButtonConfig) (d : Bool) :
    transactionOf (Instr.ofRequest cfg d) = ⟨Instr.ofRequest cfg d, midiEncode cfg d⟩ := by
  simp [transactionOf]

/-- The queue does not enter into which request an event brings. -/
theorem requestOf_setPending (s : State) (q : List HostEvent) (e : HostEvent) :
    requestOf { s with pending := q } e = requestOf s e := by
  cases e <;> rfl

/-- Everything an event that answers a next state did to the block's part. -/
theorem EventEffect.blockEffect {s t : State} {e : HostEvent} (h : EventEffect s e t) : BlockEffect s e t := by
  cases h with
  | presented i hr hw hb =>
    exact .transaction i hr hw rfl rfl rfl (fun ⟨index, d, he⟩ => absurd he (hb index d)) fun _ => rfl
  | dispatched index d cfg he hs hc =>
    refine .transaction (Instr.ofRequest cfg d) ?_ (by rwa [Instr.ofRequest_wellFormed]) rfl rfl ?_ (fun _ => ?_)
      fun hne => absurd he (hne index d)
    · rw [he, requestOf_buttonEvent, hs]; rfl
    · rw [transactionOf_ofRequest]; rfl
    · rw [transactionOf_ofRequest]; rfl
  | dropped index d he hs => exact .idle (by rw [he, requestOf_buttonEvent, hs]; rfl) ⟨rfl, rfl, rfl, rfl⟩
  | attached d n o he => exact .idle (by rw [he]; rfl) (.of_frame (onAttach_frame d n o s))
  | detached d he => exact .idle (by rw [he]; rfl) (.of_frame (onDetach_frame d s))
  | written index cfg he => exact .idle (by rw [he]; rfl) ⟨rfl, rfl, rfl, rfl⟩
  | untouched he => exact .idle (by rcases he with rfl | rfl <;> rfl) ⟨rfl, rfl, rfl, rfl⟩
  | opened index he => exact .idle (by rw [he]; rfl) ⟨rfl, rfl, rfl, rfl⟩

/-- Everything a step that answers a next state on an event did to the block's part. -/
theorem step_blockEffect {s t : State} {e : HostEvent} {rest : List HostEvent} (hp : s.pending = e :: rest)
    (h : step s = .next t) : BlockEffect s e t := by
  rw [step_of_pending hp] at h
  cases (handleEvent_next h).blockEffect with
  | idle hr hb => exact .idle (requestOf_setPending s rest e ▸ hr) ⟨hb.k, hb.inputs, hb.history, hb.sends⟩
  | transaction i hr hw hk hi hh hbutton hdirect =>
    exact .transaction i (requestOf_setPending s rest e ▸ hr) hw hk hi hh hbutton hdirect

/-- The history gains the transaction of the event's request, if it brings one. -/
theorem BlockEffect.history_eq {s t : State} {e : HostEvent} (h : BlockEffect s e t) :
    t.history = s.history ++ ((requestOf s e).map transactionOf).toList := by
  cases h with
  | idle hr hb => simp [hr, hb.history]
  | transaction i hr hw hk hi hh => simp [hr, hh]

/-- A step takes the oldest event off the queue. -/
theorem step_pending {s t : State} {e : HostEvent} {rest : List HostEvent} (hp : s.pending = e :: rest)
    (h : step s = .next t) : t.pending = rest := by
  rw [step_of_pending hp] at h
  exact handleEvent_pending h

/-- Settles O45: the queue by `step_pending`, the block's part by the inversion `step_blockEffect`. -/
theorem eventsAreProcessedInArrivalOrder : Obligations.EventsAreProcessedInArrivalOrder := by
  intro s t e rest hp h
  have heffect := step_blockEffect hp h
  refine ⟨step_pending hp h, heffect.history_eq, ?_⟩
  cases heffect with
  | idle hr hb => exact ⟨fun _ => by simp [hr, hb.sends], fun _ => hb.sends⟩
  | transaction i hr hw hk hi hh hbutton hdirect => exact ⟨fun he => by simp [hr, hbutton he], hdirect⟩

/-! ### No hidden state, and no request in a host call -/

/-- Of the whole state only the store enters into which request an event brings. -/
theorem requestOf_congr {s₁ s₂ : State} (h : s₁.store = s₂.store) (e : HostEvent) : requestOf s₁ e = requestOf s₂ e := by
  cases e <;> simp [requestOf, State.storeEntry, h]

/-- Settles O46: both histories gain the transaction of one request; an operation's outputs are those of its own lines. -/
theorem blockKeepsNoHiddenState : Obligations.BlockKeepsNoHiddenState := by
  refine ⟨fun s₁ s₂ t₁ t₂ e rest₁ rest₂ hp₁ hp₂ hstore h₁ h₂ => ?event, fun i s₁ s₂ t₁ t₂ h₁ h₂ => ?operation⟩
  case event =>
    refine ⟨_, (step_blockEffect hp₁ h₁).history_eq, ?_⟩
    rw [requestOf_congr hstore]
    exact (step_blockEffect hp₂ h₂).history_eq
  case operation =>
    obtain ⟨hw, rfl⟩ := exec_next h₁
    obtain ⟨-, rfl⟩ := exec_next h₂
    exact ⟨rfl, by rw [blockReturns_of_wellFormed hw, blockReturns_of_wellFormed hw]⟩

/-- A step on an event that brings no request leaves the block's part. -/
theorem step_sameBlock {s t : State} {e : HostEvent} {rest : List HostEvent} (hp : s.pending = e :: rest)
    (h : step s = .next t) (hr : requestOf s e = none) : SameBlock s t := by
  cases step_blockEffect hp h with
  | idle _ hb => exact hb
  | transaction i hi => cases hr.symm.trans hi

/-- Settles O47: none of these events brings a request, and the port calls have a step of their own. -/
theorem hostCallsPresentNothing : Obligations.HostCallsPresentNothing := by
  refine ⟨fun s t e rest hp h he => ?silent, fun s e rest hp he => ?completes⟩
  case silent =>
    have hr : requestOf s e = none := by
      rcases he with ⟨_, _, _, rfl⟩ | ⟨_, rfl⟩ | ⟨_, _, rfl⟩ | rfl | ⟨_, rfl⟩ | rfl <;> rfl
    have hb := step_sameBlock hp h hr
    exact ⟨hb.k, hb.inputs, by rw [State.outputs, hb.inputs, State.outputs], hb.history, hb.sends⟩
  case completes =>
    rcases he with rfl | ⟨index, rfl⟩ | rfl <;> exact ⟨_, step_of_pending hp, rfl, rfl⟩

/-! ### The invariant -/

/-- Settles O51: process start has nothing in its store, its history and its sends. -/
theorem invariantHoldsAtReset : Obligations.InvariantHoldsAtReset where
  storeInRange := fun _ h => nomatch h
  storeSized := rfl
  counted := rfl
  historySound := fun _ h => nomatch h
  inputsShown := rfl
  sendsFromHistory := List.Sublist.refl _

/-- Settles O50: the fields of process start. -/
theorem resetIsProcessStart : Obligations.ResetIsProcessStart :=
  ⟨rfl, rfl, rfl, rfl, rfl, rfl, rfl, rfl, rfl, rfl⟩

/-- Settles O49: the branch of `step` for an empty queue. -/
theorem idleStepKeepsTheState : Obligations.IdleStepKeepsTheState := by
  intro s hp
  simp [step, hp]

/-- The store's two clauses of the invariant. -/
structure StoreSound (s : State) : Prop where
  inRange : ∀ cfg ∈ s.store, cfg.inRange = true
  sized : s.store.length = s.reportedButtons

/-- The number of buttons is a view of the active controller. -/
theorem reportedButtons_congr {s t : State} (h : t.active = s.active) : t.reportedButtons = s.reportedButtons := by
  rw [State.reportedButtons, State.reportedButtons, h]

/-- Each of the controller's and store's moves keeps the store sound: new entries are defaults or clamped. -/
theorem ControllerEffect.storeSound {s t : State} (h : ControllerEffect s t) (hs : StoreSound s) : StoreSound t := by
  cases h with
  | attached d n o rest _ _ hta hts =>
    refine ⟨fun cfg hmem => ?_, by simp [hts, hta, State.reportedButtons]⟩
    rw [hts] at hmem
    rw [List.eq_of_mem_replicate hmem]
    exact ButtonConfig.default_inRange
  | detached a rest _ _ hta hts => exact ⟨by simp [hts], by simp [hts, hta, State.reportedButtons]⟩
  | written index cfg rest _ _ _ hta hts =>
    refine ⟨fun entry hmem => ?_, by rw [hts, List.length_set, hs.sized, reportedButtons_congr hta]⟩
    rw [hts] at hmem
    rcases List.mem_or_eq_of_mem_set hmem with hold | rfl
    · exact hs.inRange entry hold
    · exact clampConfig_inRange cfg
  | kept hta hts => exact ⟨hts ▸ hs.inRange, by rw [hts, hs.sized, reportedButtons_congr hta]⟩

/-- A transition that leaves the block's part and keeps the store sound keeps the invariant. -/
theorem State.Inv.of_sameBlock {s t : State} (h : s.Inv) (hb : SameBlock s t) (ht : StoreSound t) : t.Inv where
  storeInRange := ht.inRange
  storeSized := ht.sized
  counted := by rw [hb.k, hb.history, h.counted]
  historySound := by rw [hb.history]; exact h.historySound
  inputsShown := by rw [hb.inputs, hb.history]; exact h.inputsShown
  sendsFromHistory := by rw [hb.sends, State.messages, hb.history]; exact h.sendsFromHistory

/-- A transition that makes one in-range transaction, and sends its message or nothing, and keeps the store sound keeps the
invariant. -/
theorem State.Inv.of_transaction {s t : State} {i : Instr} (h : s.Inv) (hw : i.wellFormed = true) (hk : t.k = s.k + 1)
    (hi : t.inputs = some i.ports) (hh : t.history = s.history ++ [transactionOf i])
    (hsends : t.sends = s.sends ++ [(transactionOf i).message] ∨ t.sends = s.sends) (ht : StoreSound t) : t.Inv where
  storeInRange := ht.inRange
  storeSized := ht.sized
  counted := by rw [hk, hh, h.counted, List.length_append]; rfl
  historySound := by
    intro u hu
    rw [hh, List.mem_append, List.mem_singleton] at hu
    rcases hu with hold | rfl
    · exact h.historySound u hold
    · exact ⟨hw, rfl⟩
  inputsShown := by simp [hi, hh, transactionOf]
  sendsFromHistory := by
    have hm : t.messages = s.messages ++ [(transactionOf i).message] := by simp [State.messages, hh]
    rw [hm]
    rcases hsends with hs | hs <;> rw [hs]
    · exact h.sendsFromHistory.append (List.Sublist.refl _)
    · exact h.sendsFromHistory.trans (List.sublist_append_left _ _)

/-- Settles O52: the store's clauses by `step_controllerEffect`, the block's by `step_blockEffect`. -/
theorem stepKeepsTheInvariant : Obligations.StepKeepsTheInvariant := by
  intro s t h hst
  have hstore : StoreSound t := (step_controllerEffect hst).storeSound ⟨h.storeInRange, h.storeSized⟩
  obtain ⟨-, rfl⟩ | ⟨e, rest, hp, -⟩ := step_next hst
  · exact h
  · cases step_blockEffect hp hst with
    | idle _ hb => exact h.of_sameBlock hb hstore
    | transaction i _ hw hk hi hh hbutton hdirect =>
      refine h.of_transaction hw hk hi hh ?_ hstore
      by_cases he : ∃ index d, e = buttonEvent index d
      · exact .inl (hbutton he)
      · exact .inr (hdirect fun index d heq => he ⟨index, d, heq⟩)

/-! ### Runs -/

/-- A recorded message is its request's message, of an in-range configuration. -/
theorem State.Inv.exists_request {s : State} (h : s.Inv) {m : MidiMessage} (hm : m ∈ s.messages) :
    ∃ cfg d, cfg.inRange = true ∧ m = midiEncode cfg d := by
  obtain ⟨t, ht, rfl⟩ := List.mem_map.1 hm
  obtain ⟨hw, hmessage⟩ := h.historySound t ht
  exact ⟨_, _, Instr.config_inRange hw, hmessage⟩

theorem State.Inv.messages_wellFormed {s : State} (h : s.Inv) : ∀ m ∈ s.messages, messageWellFormed m = true := by
  intro m hm
  obtain ⟨cfg, d, hcfg, rfl⟩ := h.exists_request hm
  exact messageWellFormed_midiEncode hcfg d

/-- A longer history gives a longer list of messages. -/
theorem messages_isPrefix {s t : State} {new : List Transaction} (h : t.history = s.history ++ new) :
    s.messages <+: t.messages :=
  ⟨new.map Transaction.message, by rw [State.messages, State.messages, h, List.map_append]⟩

/-- A step never shortens the observation. -/
theorem step_messages_isPrefix {s t : State} (h : step s = .next t) : s.messages <+: t.messages := by
  obtain ⟨-, rfl⟩ | ⟨e, rest, hp, -⟩ := step_next h
  · exact messages_isPrefix (List.append_nil _).symm
  · exact messages_isPrefix (step_blockEffect hp h).history_eq

/-- Settles O53, by induction on the number of steps. -/
theorem runsKeepTheInvariant : Obligations.RunsKeepTheInvariant := by
  intro n
  induction n with
  | zero =>
    intro s t h hrun
    cases hrun
    exact ⟨h, messages_isPrefix (List.append_nil _).symm, h.messages_wellFormed⟩
  | succ n ih =>
    intro s t h hrun
    obtain ⟨u, hstep, hrest⟩ := runFrom_succ_next hrun
    obtain ⟨ht, hle, hmessages⟩ := ih u t (stepKeepsTheInvariant s u h hstep) hrest
    exact ⟨ht, (step_messages_isPrefix hstep).trans hle, hmessages⟩

end Sys2Proof.Machine
end

section
/-! PROOFS. The byte stream of a run (30_encoding R61, 70_reset R116) and the output lines (10_state R24, R31). -/

namespace Sys2Proof.Machine

/-! ### Framing the stream -/

/-- Messages whose status bytes tell their lengths are read back one after another. -/
theorem splitStream_streamBytes {ms : List MidiMessage}
    (h : ∀ m ∈ ms, framedLength m.status = some (messageLength m)) : splitStream (streamBytes ms) = some ms := by
  induction ms with
  | nil => rfl
  | cons m ms ih =>
    have hrest : splitStream (streamBytes ms) = some ms := ih fun n hn => h n (List.mem_cons_of_mem m hn)
    rw [streamBytes, splitStream_append m _ (h m List.mem_cons_self), hrest]
    rfl

/-- In the bytes of a message bit 7 marks the first alone. -/
theorem messageBytes_map_startsMessage {cfg : ButtonConfig} (h : cfg.inRange = true) (d : Bool) :
    (messageBytes (midiEncode cfg d)).map startsMessage =
      true :: List.replicate (messageLength (midiEncode cfg d) - 1) false := by
  rw [messageBytes_midiEncode, messageLength_midiEncode, List.map_cons, List.map_cons, startsMessage_status h,
    startsMessage_data1 h]
  split <;> rfl

/-- Settles O27: every message of the run is that of an in-range request, whose status byte tells its length; the stream is
then split by induction over the messages. -/
theorem streamSplitsIntoItsMessages : Obligations.StreamSplitsIntoItsMessages := by
  intro s h
  have framed : ∀ m ∈ s.messages, framedLength m.status = some (messageLength m) := by
    intro m hm
    obtain ⟨cfg, d, hcfg, rfl⟩ := h.exists_request hm
    exact framedLength_midiEncode hcfg d
  refine ⟨splitStream_streamBytes framed, fun m hm => ⟨framed m hm, ?_⟩⟩
  obtain ⟨cfg, d, hcfg, rfl⟩ := h.exists_request hm
  exact messageBytes_map_startsMessage hcfg d

/-! ### The length of the stream -/

/-- Two bytes for each transaction, and one more for each NOTE_ON. -/
theorem streamBytes_length {ts : List Transaction}
    (h : ∀ t ∈ ts, t.message = midiEncode t.request.config t.request.isRelease) :
    (streamBytes (ts.map Transaction.message)).length =
      2 * ts.length + ts.countP fun t => t.request.function == .note && !t.request.isRelease := by
  induction ts with
  | nil => rfl
  | cons t ts ih =>
    have hrest := ih fun u hu => h u (List.mem_cons_of_mem t hu)
    have hlen : (messageBytes t.message).length =
        if t.request.config.function = .note ∧ t.request.isRelease = false then 3 else 2 := by
      rw [h t List.mem_cons_self]; exact messageLength_midiEncode _ _
    rw [List.map_cons, streamBytes, List.length_append, hrest, hlen, List.countP_cons, List.length_cons]
    cases t.request <;> simp [Instr.config, Instr.function, Instr.isRelease] <;> omega

/-- Settles O28: the history is sound and the index counts it. -/
theorem streamLengthCountsNoteOns : Obligations.StreamLengthCountsNoteOns := by
  intro s h
  rw [State.messages, streamBytes_length fun t ht => (h.historySound t ht).2, h.counted]

/-! ### The output lines -/

/-- Settles O30: the lines present `lines.instr`, and the outputs for an operation's lines are its message's port form. -/
theorem portLinesCarryTheMessage : Obligations.PortLinesCarryTheMessage := by
  intro s lines rest hp
  refine ⟨_, midiEncode lines.instr.config lines.instr.isRelease,
    (step_of_ports hp).trans (exec_of_wellFormed lines.instr_wellFormed _), ?inputs, rfl, ?history, ?outputs⟩
  case inputs => rw [recordTransaction_inputs, PortInputs.instr_ports]
  case history => rw [PortInputs.decode_pack]; rfl
  case outputs => rw [recordTransaction_outputs, portOutputs_ports]; rfl

/-- The port form of a message, by its length. -/
theorem messageOnPorts_midiEncode (cfg : ButtonConfig) (d : Bool) :
    messageOnPorts (midiEncode cfg d) =
      { len := if messageLength (midiEncode cfg d) = 3 then 3#2 else 2#2
        b0 := (midiEncode cfg d).status, b1 := (midiEncode cfg d).data1, b2 := (midiEncode cfg d).data2.getD 0x00#8 } := by
  rcases cfg with ⟨_ | _, c, v⟩ <;> cases d <;> rfl

/-- Settles O31: the lines are those of the last request, whose message the history keeps. -/
theorem outputsShowTheLastMessage : Obligations.OutputsShowTheLastMessage := by
  intro s h
  rw [State.outputs, h.inputsShown, Option.map_map]
  refine Option.map_congr fun t ht => ?_
  obtain ⟨-, hmessage⟩ := h.historySound t (List.mem_of_getLast? ht)
  rw [Function.comp_apply, portOutputs_ports, hmessage, messageOnPorts_midiEncode]

end Sys2Proof.Machine
end

section
/-! PROOFS. Runs (70_reset R116): over a queue of button notifications, over a stream of events, and without end. -/

namespace Sys2Proof.Machine

/-! ### One button notification -/

/-- The transaction that a button notification makes over a store, `none` for one out of bounds. -/
def buttonTransaction (s : State) (e : Int × Bool) : Option Transaction :=
  (s.storeEntry e.1).map fun cfg => ⟨Instr.ofRequest cfg e.2, midiEncode cfg e.2⟩

/-- Of the whole state only the store enters into it. -/
theorem buttonTransaction_congr {s t : State} (h : t.store = s.store) : buttonTransaction t = buttonTransaction s := by
  funext e; simp [buttonTransaction, State.storeEntry, h]

/-- `t` follows `s` by the transactions `new`, each of them sent, and nothing else but the reports, the lines and the queue. -/
structure ButtonProgress (s t : State) (new : List Transaction) : Prop where
  inv : t.Inv
  history : t.history = s.history ++ new
  sends : t.sends = s.sends ++ new.map Transaction.message
  store : t.store = s.store
  active : t.active = s.active

theorem ButtonProgress.refl {s : State} (h : s.Inv) : ButtonProgress s s [] :=
  ⟨h, by simp, by simp, rfl, rfl⟩

theorem ButtonProgress.trans {s t u : State} {new more : List Transaction} (h : ButtonProgress s t new)
    (h' : ButtonProgress t u more) : ButtonProgress s u (new ++ more) where
  inv := h'.inv
  history := by rw [h'.history, h.history, List.append_assoc]
  sends := by rw [h'.sends, h.sends, List.map_append, List.append_assoc]
  store := h'.store.trans h.store
  active := h'.active.trans h.active

/-- The index counts the transactions. -/
theorem ButtonProgress.k {s t : State} {new : List Transaction} (h : ButtonProgress s t new) (hs : s.Inv) :
    t.k = s.k + new.length := by
  rw [h.inv.counted, h.history, List.length_append, hs.counted]

theorem ButtonProgress.messages {s t : State} {new : List Transaction} (h : ButtonProgress s t new) :
    t.messages = s.messages ++ new.map Transaction.message := by
  rw [State.messages, h.history, List.map_append, State.messages]

/-- In a state that meets the invariant a step on a button notification completes, with the notification's transaction. -/
theorem step_buttonProgress {s : State} {e : Int × Bool} {rest : List HostEvent} (h : s.Inv)
    (hp : s.pending = buttonEvent e.1 e.2 :: rest) :
    ∃ t, step s = .next t ∧ t.pending = rest ∧ ButtonProgress s t (buttonTransaction s e).toList := by
  cases hs : s.storeEntry e.1 with
  | none =>
    have hstep := step_button_dropped hp ((storeEntry_eq_none_iff s e.1).1 hs)
    exact ⟨_, hstep, rfl, stepKeepsTheInvariant s _ h hstep, by simp [buttonTransaction, hs],
      by simp [buttonTransaction, hs], rfl, rfl⟩
  | some cfg =>
    have hstep := step_button_dispatched h hp hs
    exact ⟨_, hstep, rfl, stepKeepsTheInvariant s _ h hstep, by simp [buttonTransaction, hs],
      by simp [buttonTransaction, hs], rfl, rfl⟩

/-! ### A queue of button notifications -/

/-- A run over a queue of button notifications completes, with the transactions of those in bounds, in order. -/
theorem runFrom_buttonProgress (events : List (Int × Bool)) {s : State} (h : s.Inv)
    (hp : s.pending = events.map fun e => buttonEvent e.1 e.2) :
    ∃ t, runFrom events.length s = .next t ∧ t.pending = [] ∧
      ButtonProgress s t (events.filterMap (buttonTransaction s)) := by
  induction events generalizing s with
  | nil => exact ⟨s, rfl, hp, .refl h⟩
  | cons e events ih =>
    obtain ⟨t, hstep, hpending, hone⟩ := step_buttonProgress h hp
    obtain ⟨u, hrun, hempty, hmore⟩ := ih hone.inv hpending
    refine ⟨u, (runFrom_of_step hstep _).trans hrun, hempty, ?_⟩
    rw [buttonTransaction_congr hone.store] at hmore
    have happend : (e :: events).filterMap (buttonTransaction s) =
        (buttonTransaction s e).toList ++ events.filterMap (buttonTransaction s) := by
      rw [List.filterMap_cons]; cases buttonTransaction s e <;> rfl
    exact happend ▸ hone.trans hmore

/-- Settles O54: `runFrom_buttonProgress`, by induction over the notifications. -/
theorem buttonRunSendsItsMessages : Obligations.ButtonRunSendsItsMessages := by
  intro events s h hp
  obtain ⟨t, hrun, hempty, hprogress⟩ := runFrom_buttonProgress events h hp
  exact ⟨⟨t, hrun, hprogress.inv.messages_wellFormed⟩, t, _, hrun, rfl, hprogress.history, hprogress.sends, hprogress.k h,
    hprogress.store, hprogress.active, hempty⟩

/-! ### Presenting one at a time, and all at once -/

/-- A run stops at the refusal of its first step. -/
theorem runFrom_of_refused {s : State} {r : Refusal} (h : step s = .refused r) (n : Nat) :
    runFrom (n + 1) s = .refused r := by
  have hs : Sys2Proof.core.step s = .refused r := h
  simp only [runFrom, Host.Core.run]
  rw [hs]
  rfl

/-- With the first events of a stream in the queue, a step is the first one's action, and the others wait. -/
theorem step_of_queuedStream (events : Nat → HostEvent) (n : Nat) (s : State) :
    step { s with pending := (List.range (n + 1)).map events } =
      withPending ((List.range n).map fun j => events (j + 1)) (handleEvent (events 0) s) := by
  have hqueue : (List.range (n + 1)).map events = events 0 :: (List.range n).map fun j => events (j + 1) := by
    rw [List.range_succ_eq_map, List.map_cons, List.map_map]; rfl
  rw [hqueue, step_of_pending (s := { s with pending := _ }) rfl]
  exact handleEvent_setPending (events 0) s _

/-- Settles O56, by induction on the number of events: the action of the first does not depend on those behind it
(`handleEvent_setPending`). -/
theorem eventRunsAgreeWithQueuedRuns : Obligations.EventRunsAgreeWithQueuedRuns := by
  intro events n
  induction n generalizing events with
  | zero => intro s hp; exact congrArg (fun q => Host.Outcome.next { s with pending := q }) hp
  | succ n ih =>
    intro s hp
    have hqueued := step_of_queuedStream events n s
    cases hfirst : handleEvent (events 0) s with
    | next t =>
      rw [hfirst] at hqueued
      rw [runEvents_of_step ((step_present hp _).trans hfirst), runFrom_of_step hqueued]
      exact ih (fun j => events (j + 1)) t ((handleEvent_pending hfirst).trans hp)
    | fault r => cases r
    | refused r =>
      rw [hfirst] at hqueued
      rw [runFrom_of_refused hqueued]
      simp only [runEvents, step_present hp, hfirst]

/-! ### Runs without end -/

theorem State.Inv.present {s : State} (h : s.Inv) (e : HostEvent) : (present e s).Inv :=
  h.of_sameBlock ⟨rfl, rfl, rfl, rfl⟩ ⟨h.storeInRange, h.storeSized⟩

/-- Presented with nothing pending, an event is the whole queue. -/
theorem present_pending_of_nil {s : State} (hp : s.pending = []) (e : HostEvent) : (present e s).pending = [e] := by
  rw [present_pending, hp]; rfl

/-- One more event of a run over a stream: the invariant, the empty queue, and the event's transaction. -/
theorem step_present_effect {s t : State} {e : HostEvent} (h : s.Inv) (hp : s.pending = [])
    (hst : step (present e s) = .next t) :
    t.Inv ∧ t.pending = [] ∧ t.history = s.history ++ ((requestOf s e).map transactionOf).toList := by
  have hqueue := present_pending_of_nil hp e
  refine ⟨stepKeepsTheInvariant _ t (h.present e) hst, step_pending hqueue hst, ?_⟩
  have hhistory := (step_blockEffect hqueue hst).history_eq
  rwa [requestOf_congr (s₁ := present e s) (s₂ := s) rfl] at hhistory

/-- Every state of an infinite run meets the invariant with nothing pending. -/
theorem InfiniteRun.inv {events : Nat → HostEvent} {states : Nat → State} (hrun : InfiniteRun events states)
    (h : (states 0).Inv) (hp : (states 0).pending = []) (n : Nat) : (states n).Inv ∧ (states n).pending = [] := by
  induction n with
  | zero => exact ⟨h, hp⟩
  | succ n ih =>
    obtain ⟨hinv, hpending, -⟩ := step_present_effect ih.1 ih.2 (hrun n)
    exact ⟨hinv, hpending⟩

/-- Each state of an infinite run gains the transaction of its event. -/
theorem InfiniteRun.history_succ {events : Nat → HostEvent} {states : Nat → State} (hrun : InfiniteRun events states)
    (h : (states 0).Inv) (hp : (states 0).pending = []) (n : Nat) :
    (states (n + 1)).history = (states n).history ++ ((requestOf (states n) (events n)).map transactionOf).toList := by
  obtain ⟨hinv, hpending⟩ := hrun.inv h hp n
  exact (step_present_effect hinv hpending (hrun n)).2.2

/-- The observation of an infinite run only grows. -/
theorem InfiniteRun.messages_isPrefix {events : Nat → HostEvent} {states : Nat → State} (hrun : InfiniteRun events states)
    (h : (states 0).Inv) (hp : (states 0).pending = []) {n j : Nat} (hnj : n ≤ j) :
    (states n).messages <+: (states j).messages := by
  induction hnj with
  | refl => exact Machine.messages_isPrefix (List.append_nil _).symm
  | step _ ih => exact ih.trans (Machine.messages_isPrefix (hrun.history_succ h hp _))

/-- Settles O57: of two states of the run one's messages begin with the other's, so no place holds two messages. -/
theorem infiniteRunsHaveOneObservation : Obligations.InfiniteRunsHaveOneObservation := by
  intro events states hrun h hp
  have grows {n j : Nat} (hnj : n ≤ j) := hrun.messages_isPrefix h hp hnj
  refine ⟨fun n => ⟨(hrun.inv h hp n).1, (hrun.inv h hp n).2, hrun.history_succ h hp n⟩, fun n j => grows, ?_⟩
  rintro j m m' ⟨a, ha⟩ ⟨b, hb⟩
  have later {a b : Nat} {m : MidiMessage} (hab : a ≤ b) (ha : (states a).messages[j]? = some m) :
      (states b).messages[j]? = some m := by
    obtain ⟨more, hmore⟩ := grows hab
    rw [← hmore, List.getElem?_append_left (List.getElem?_eq_some_iff.1 ha).1, ha]
  rcases Nat.le_total a b with hab | hba
  · exact Option.some.inj ((later hab ha).symm.trans hb)
  · exact Option.some.inj (ha.symm.trans (later hba hb))

/-- A command word presented with nothing pending completes, with its transaction. -/
theorem step_present_command {s : State} (hp : s.pending = []) (w : CmdWord) :
    step (present (.command w.toNat) s) = .next (recordTransaction (decode w)
      (midiEncode (decode w).config (decode w).isRelease) s) := by
  have hcommand : handleEvent (.command w.toNat) s = exec (decode w) s := by
    rw [handleEvent, presentWord_of_lt w.isLt, BitVec.ofNat_toNat, BitVec.setWidth_eq]
  rw [step_present hp, hcommand, exec_of_wellFormed (decode_wellFormed w)]

/-- Settles O58: every word completes, so the run goes on without end; state `n + 1` holds the message of word `n` last. -/
theorem wordStreamsRunForever : Obligations.WordStreamsRunForever := by
  intro words s h hp
  obtain ⟨states, hstart, hrun, hindex⟩ := infiniteRun_of_progress
    (events := fun n => .command (words n).toNat) (P := fun n t => t.pending = [] ∧ t.k = s.k + n)
    (fun n t ht => ⟨_, step_present_command ht.1 (words n), ht.1, by rw [recordTransaction_k, ht.2]; rfl⟩)
    (s := s) ⟨hp, rfl⟩
  refine ⟨states, hstart, hrun, fun n => ⟨(hindex n).2, n + 1, ?_⟩⟩
  have hlast := Host.Outcome.next.inj ((hrun n).symm.trans (step_present_command (hindex n).1 (words n)))
  have hcounted : (states n).messages.length = s.k + n := by
    rw [State.messages, List.length_map, ← (hrun.inv (hstart ▸ h) (hstart ▸ hp) n).1.counted, (hindex n).2]
  rw [hlast, recordTransaction_messages, ← hcounted, List.getElem?_concat_length]

/-- A button notification presented with nothing pending completes, with its transaction. -/
theorem step_present_buttonProgress {s : State} (e : Int × Bool) (h : s.Inv) (hp : s.pending = []) :
    ∃ t, step (present (buttonEvent e.1 e.2) s) = .next t ∧ t.pending = [] ∧
      ButtonProgress s t (buttonTransaction s e).toList := by
  obtain ⟨t, hstep, hpending, hprogress⟩ := step_buttonProgress (h.present _) (present_pending_of_nil hp _)
  exact ⟨t, hstep, hpending, hprogress.inv, hprogress.history, hprogress.sends, hprogress.store, hprogress.active⟩

/-- The transactions of the first `n` notifications of a stream, over the store of `s`. -/
def streamTransactions (s : State) (buttons : Nat → Int × Bool) (n : Nat) : List Transaction :=
  (List.range n).filterMap fun j => buttonTransaction s (buttons j)

theorem streamTransactions_succ (s : State) (buttons : Nat → Int × Bool) (n : Nat) :
    streamTransactions s buttons (n + 1) =
      streamTransactions s buttons n ++ (buttonTransaction s (buttons n)).toList := by
  rw [streamTransactions, List.range_succ, List.filterMap_append, streamTransactions]
  rfl

theorem streamTransactions_map_message (s : State) (buttons : Nat → Int × Bool) (n : Nat) :
    (streamTransactions s buttons n).map Transaction.message =
      (List.range n).filterMap fun j => (s.storeEntry (buttons j).1).map fun cfg => midiEncode cfg (buttons j).2 := by
  simp [streamTransactions, buttonTransaction, List.map_filterMap, Function.comp_def]

/-- Settles O59: each notification completes with its transaction over the store of `s`, which no notification changes. -/
theorem buttonStreamsRunForever : Obligations.ButtonStreamsRunForever := by
  intro buttons s h hp
  have progress (n : Nat) (t : State)
      (ht : t.pending = [] ∧ ButtonProgress s t (streamTransactions s buttons n)) :
      ∃ u, step (present (buttonEvent (buttons n).1 (buttons n).2) t) = .next u ∧
        u.pending = [] ∧ ButtonProgress s u (streamTransactions s buttons (n + 1)) := by
    obtain ⟨hpending, hsofar⟩ := ht
    obtain ⟨u, hstep, hempty, hone⟩ := step_present_buttonProgress (buttons n) hsofar.inv hpending
    rw [buttonTransaction_congr hsofar.store] at hone
    exact ⟨u, hstep, hempty, streamTransactions_succ s buttons n ▸ hsofar.trans hone⟩
  obtain ⟨states, hstart, hrun, hprogress⟩ := infiniteRun_of_progress progress ⟨hp, .refl h⟩
  refine ⟨states, hstart, hrun, fun n => ⟨_, (streamTransactions_map_message s buttons n), ?_⟩⟩
  obtain ⟨-, hn⟩ := hprogress n
  exact ⟨hn.messages, hn.sends, by rw [List.length_map]; exact hn.k h, hn.store⟩

end Sys2Proof.Machine
end

section
/-! PROOFS. Refusal (60_exceptions R87), the environment's events (60_exceptions R86 to R99), and short runs through them. -/

namespace Sys2Proof.Machine

/-! ### Out-of-range requests -/

/-- An operation out of range is refused, by an operand that is out of range. -/
theorem exec_of_illFormed {i : Instr} (h : i.wellFormed = false) (s : State) :
    (exec i s = .refused (.channelOutOfRange i.channel) ∧ ¬ (0 ≤ i.channel ∧ i.channel ≤ 15)) ∨
    (exec i s = .refused (.valueOutOfRange i.value) ∧ ¬ (0 ≤ i.value ∧ i.value ≤ 127)) := by
  rw [exec_eq_transact, transact, ← channelInRange_iff, ← valueInRange_iff]
  rw [Instr.wellFormed_eq] at h
  cases hc : channelInRange i.channel with
  | false => exact .inl ⟨rfl, Bool.false_ne_true⟩
  | true =>
    rw [hc, Bool.true_and] at h
    exact .inr ⟨by simp [h], by simp [h]⟩

/-- Settles O32: the request's operation has its operands. -/
theorem outOfRangeRequestIsRefused : Obligations.OutOfRangeRequestIsRefused := by
  intro cfg d s rest h hp
  have hstep : step s = exec (Instr.ofRequest cfg d) { s with pending := rest } := step_of_pending hp
  have hw : (Instr.ofRequest cfg d).wellFormed = false := by rwa [Instr.ofRequest_wellFormed]
  simpa [← hstep] using exec_of_illFormed hw { s with pending := rest }

/-! ### Button notifications -/

/-- Settles O33: the step equation of a dropped notification. -/
theorem outOfBoundsButtonIsDropped : Obligations.OutOfBoundsButtonIsDropped := fun _ _ _ _ hp hb =>
  ⟨_, rfl, rfl, step_button_dropped hp hb⟩

/-- Settles O35: the step equation of a dispatched notification, whose only free value is in the last report. -/
theorem sendAnswerIsOnlyReported : Obligations.SendAnswerIsOnlyReported := by
  intro s index d cfg rest h hp h0 hcfg
  refine ⟨_, step_button_dispatched h hp (storeEntry_of_getElem? h0 hcfg), fun ha => ?_, fun ha => ?_⟩
  · rw [ha]; exact ⟨rfl, rfl⟩
  · rw [ha]; exact ⟨rfl, rfl⟩

/-- A step dispatches a button whose entry is in range, whatever the rest of the state. -/
theorem step_button_of_inRange {s : State} {index : Int} {d : Bool} {cfg : ButtonConfig} {rest : List HostEvent}
    (hp : s.pending = buttonEvent index d :: rest) (he : s.storeEntry index = some cfg) (hc : cfg.inRange = true) :
    step s = .next (sendMessage (midiEncode cfg d)
      (recordTransaction (Instr.ofRequest cfg d) (midiEncode cfg d) { s with pending := rest })) := by
  rw [step_of_buttonEvent hp, routeButton_dispatched (by rwa [storeEntry_setPending]) hc]

/-! ### Attach and detach -/

/-- A failed open only reports (60_exceptions R96). -/
theorem step_attach_openFailed {s : State} {d : DeviceId} {n : Nat} {rest : List HostEvent} (ha : s.active = none)
    (hp : s.pending = .attach d n none :: rest) :
    step s = .next (report (.attachReturned d .openFailed) { s with pending := rest }) := by
  rw [step_of_attach hp, onAttach_of_openFailed (s := { s with pending := rest }) ha]

/-- Settles O36: the three step equations of an attach. -/
theorem attachFollowsItsContract : Obligations.AttachFollowsItsContract := by
  refine fun s d n opened rest hp => ⟨fun h ha ho => ?installed, fun hfail => ?failed⟩
  case installed =>
    subst ho
    exact ⟨_, rfl, step_attach_opened ha hp⟩
  case failed =>
    rcases Option.eq_none_or_eq_some s.active with ha | ⟨a, ha⟩
    · obtain rfl : opened = none := hfail.resolve_left fun hne => hne ha
      exact ⟨_, rfl, step_attach_openFailed ha hp⟩
    · exact ⟨_, rfl, step_attach_of_active ha hp⟩

/-- Settles O37: the step equation of a matching detach, and no action for any other. -/
theorem detachFollowsItsContract : Obligations.DetachFollowsItsContract := by
  refine fun s d rest hp => ⟨fun a ha hd => ?matching, fun hother => ?other⟩
  case matching =>
    subst hd
    exact step_detach_matching ha hp
  case other =>
    rw [step_of_detach hp]
    rcases Option.eq_none_or_eq_some s.active with ha | ⟨a, ha⟩
    · rw [onDetach_of_none (s := { s with pending := rest }) ha]
    · rw [onDetach_of_other (s := { s with pending := rest }) ha (hother a ha)]

/-- Settles O55: the step equations of an attach and of a port open, with what their reports stand for. -/
theorem failedOpensAreDeviceUnavailable : Obligations.FailedOpensAreDeviceUnavailable :=
  ⟨fun _ _ _ _ ha hp => ⟨_, rfl, rfl, step_attach_openFailed ha hp⟩,
    fun _ _ _ _ _ ha hp => ⟨_, _, step_attach_opened ha hp, rfl, rfl, rfl⟩,
    fun _ _ _ hp => ⟨_, _, rfl, rfl, step_of_pending hp⟩⟩

/-! ### Configuration writes -/

/-- Clamping to a range that is not empty is saturating (D23). -/
theorem clamp_eq_max_min (x : Int) {lo hi : Int} (h : lo ≤ hi) : clamp x lo hi = max lo (min x hi) := by
  unfold clamp
  split_ifs <;> omega

theorem clampConfig_eq (f : ButtonFunction) (c v : Int) :
    clampConfig ⟨f, c, v⟩ = ⟨f, max 0 (min c 15), max 0 (min v 127)⟩ := by
  rw [clampConfig, clamp_eq_max_min c (by decide), clamp_eq_max_min v (by decide)]; rfl

/-- A step on an in-bounds configuration write stores the clamped entry. -/
theorem step_configWrite {s : State} {index : Int} {cfg : ButtonConfig} {rest : List HostEvent}
    (hp : s.pending = .configWrite index cfg :: rest) (h0 : 0 ≤ index) (h1 : index < s.store.length) :
    step s = .next { s with store := s.store.set index.toNat (clampConfig cfg), pending := rest } :=
  (step_of_pending hp).trans (configWrite_of_lt (s := { s with pending := rest }) h0 h1 cfg)

/-- A configuration write outside the store is refused. -/
theorem configWrite_of_storeEntry_none {s : State} {index : Int} (h : s.storeEntry index = none) (cfg : ButtonConfig) :
    configWrite index cfg s = .refused (.noSuchEntry index) := by
  simp [configWrite, h]

/-- Settles O40: the written entry is the saturated one; outside the store there is no entry to write. -/
theorem configurationWriteClamps : Obligations.ConfigurationWriteClamps := by
  refine fun s index f c v rest hp => ⟨fun ⟨h0, h1⟩ => ?inside, fun hout => ?outside⟩
  case inside => rw [step_configWrite hp h0 h1, clampConfig_eq]
  case outside =>
    have hnone : ({ s with pending := rest } : State).storeEntry index = none := by
      rwa [storeEntry_setPending, storeEntry_eq_none_iff]
    exact (step_of_pending hp).trans (configWrite_of_storeEntry_none hnone _)

/-- The written entry is found at its own index. -/
theorem storeEntry_set_self {s : State} {index : Int} (h0 : 0 ≤ index) (h1 : index < s.store.length) (cfg : ButtonConfig)
    (rest : List HostEvent) :
    ({ s with store := s.store.set index.toNat cfg, pending := rest } : State).storeEntry index = some cfg := by
  have hlt : index.toNat < s.store.length := by omega
  simp [State.storeEntry, h0, hlt]

/-- Every other index has its entry as before. -/
theorem storeEntry_set_other {s : State} {index other : Int} (h0 : 0 ≤ index) (hne : other ≠ index) (cfg : ButtonConfig)
    (rest : List HostEvent) :
    ({ s with store := s.store.set index.toNat cfg, pending := rest } : State).storeEntry other = s.storeEntry other := by
  unfold State.storeEntry
  split_ifs with ho
  · exact List.getElem?_set_ne (by omega)
  · rfl

/-- Settles O41: the write's step, then the dispatch of the entry it stored. -/
theorem nextDispatchSeesTheWrite : Obligations.NextDispatchSeesTheWrite := by
  intro s index cfg d rest h0 h1 hc hp
  have hwrite := step_configWrite hp h0 h1
  rw [clampConfig_of_inRange hc] at hwrite
  have hdispatch := step_button_of_inRange (d := d) (rest := rest) rfl
    (storeEntry_set_self h0 h1 cfg (buttonEvent index d :: rest)) hc
  exact ⟨_, _, hwrite, rfl, hdispatch, rfl, fun other hne => storeEntry_set_other h0 hne cfg rest⟩

/-! ### Buttons after an attach, and with no controller -/

/-- The two messages of the default configuration (95_test_vectors L1.4). -/
theorem messageBytes_default (d : Bool) :
    messageBytes (midiEncode ButtonConfig.default d) = if d then [0x80#8, 0x00#8] else [0x90#8, 0x00#8, 0x5A#8] := by
  cases d <;> decide

/-- After an attach every index within the button count has the default entry. -/
theorem storeEntry_replicate {s : State} {index : Int} {n : Nat} (h0 : 0 ≤ index) (h1 : index < n)
    (hs : s.store = List.replicate n ButtonConfig.default) : s.storeEntry index = some ButtonConfig.default := by
  have hlt : index.toNat < n := by omega
  exact storeEntry_of_getElem? h0 (by rw [hs, List.getElem?_replicate, if_pos hlt])

/-- Settles O42: the attach's step, then the dispatch of a default entry. -/
theorem unconfiguredButtonsSendTheDefault : Obligations.UnconfiguredButtonsSendTheDefault := fun _ _ _ _ _ d _ ha h0 h1 hp =>
  ⟨_, _, _, step_attach_opened ha hp, List.length_replicate, fun _ hmem => List.eq_of_mem_replicate hmem,
    step_button_of_inRange rfl (storeEntry_replicate h0 h1 rfl) ButtonConfig.default_inRange, rfl, messageBytes_default d⟩

/-- Over an empty store every notification is dropped. -/
theorem step_button_of_empty {s : State} {index : Int} {d : Bool} {rest : List HostEvent}
    (hp : s.pending = buttonEvent index d :: rest) (he : s.store = []) :
    step s = .next (report (.buttonDropped index d) { s with pending := rest }) :=
  step_button_dropped hp (by rw [he, List.length_nil]; omega)

/-- Settles O43: the detach's step empties the store. -/
theorem detachedButtonsAreDropped : Obligations.DetachedButtonsAreDropped := fun _ _ _ _ _ ha hp =>
  ⟨_, _, step_detach_matching ha hp, rfl, step_button_of_empty rfl rfl, rfl, rfl, rfl⟩

/-- With no controller the store is empty (10_state R27). -/
theorem State.Inv.store_eq_nil {s : State} (h : s.Inv) (ha : s.active = none) : s.store = [] := by
  have hsized := h.storeSized
  rw [State.reportedButtons, ha] at hsized
  exact List.eq_nil_of_length_eq_zero hsized

/-- Settles O44: with no controller the store is empty; the queue does not enter into the invariant. -/
theorem buttonsBeforeAttachAreDropped : Obligations.ButtonsBeforeAttachAreDropped := by
  refine ⟨fun s index d rest h ha hp => ?dropped, fun presented => ?start⟩
  case dropped => exact ⟨_, step_button_of_empty hp (h.store_eq_nil ha), rfl, rfl, rfl, rfl, rfl, ha, rfl⟩
  case start =>
    have hreset : State.reset.Inv := invariantHoldsAtReset
    exact ⟨hreset.of_sameBlock ⟨rfl, rfl, rfl, rfl⟩ ⟨hreset.storeInRange, hreset.storeSized⟩, rfl⟩

end Sys2Proof.Machine
end

section
/-! PROOFS. The assembly text of a request (30_encoding R63): its parts read back, and what a text that assembles is. -/

namespace Sys2Proof.Machine

/-! ### Cutting at a separator -/

/-- The cut is at the first separator. -/
theorem cutAt_append {sep : Char} {before : List Char} (h : sep ∉ before) (after : List Char) :
    cutAt sep (before ++ sep :: after) = some (before, after) := by
  induction before with
  | nil => simp [cutAt]
  | cons ch rest ih =>
    rw [List.mem_cons, not_or] at h
    obtain ⟨hch, hrest⟩ := h
    simp [cutAt, Ne.symm hch, ih hrest]

/-- A cut text is its two parts with the separator between them. -/
theorem eq_append_of_cutAt {sep : Char} {text before after : List Char} (h : cutAt sep text = some (before, after)) :
    text = before ++ sep :: after := by
  induction text generalizing before with
  | nil => cases h
  | cons ch rest ih =>
    rw [cutAt] at h
    split at h
    next heq => cases h; rw [heq]; rfl
    next =>
      split at h
      next b a hrest => cases h; rw [ih hrest]; rfl
      next => cases h

/-! ### Numerals -/

theorem readDigits_cons {base d : Nat} {ch : Char} (h : digitValue base ch = some d) (rest : List Char) (acc : Nat) :
    readDigits base (ch :: rest) acc = readDigits base rest (acc * base + d) := by
  simp [readDigits, h]

/-- What was read as digits holds no other character. -/
theorem not_mem_of_readDigits {base acc n : Nat} {digits : List Char} {ch : Char}
    (h : readDigits base digits acc = some n) (hch : digitValue base ch = none) : ch ∉ digits := by
  induction digits generalizing acc with
  | nil => exact List.not_mem_nil
  | cons first rest ih =>
    rw [readDigits] at h
    split at h
    next d hd =>
      rw [List.mem_cons, not_or]
      exact ⟨fun heq => by simp [heq, hd] at hch, ih h⟩
    next => cases h

theorem digitValue_digitChar : ∀ d < 10, digitValue 10 (Nat.digitChar d) = some d := by decide

theorem digitValue_hexDigit : ∀ d < 16, digitValue 16 (hexDigit d) = some d := by decide

theorem digitValue_hexDigitLower : ∀ d < 16, digitValue 16 (hexDigitLower d) = some d := by decide

/-- Reading the decimal digits of a number gives it back. -/
theorem readDigits_decimalText {n : Nat} (h : n < 1000) : readDigits 10 (decimalText n) 0 = some n := by
  unfold decimalText
  split_ifs with h10 h100
  · rw [readDigits_cons (digitValue_digitChar n h10), readDigits]; simp
  · rw [readDigits_cons (digitValue_digitChar (n / 10) (by omega)),
      readDigits_cons (digitValue_digitChar (n % 10) (by omega)), readDigits]
    congr 1; omega
  · rw [readDigits_cons (digitValue_digitChar (n / 100) (by omega)),
      readDigits_cons (digitValue_digitChar (n / 10 % 10) (by omega)),
      readDigits_cons (digitValue_digitChar (n % 10) (by omega)), readDigits]
    congr 1; omega

/-- Reading the hexadecimal digits of a byte gives it back, for digits of either case. -/
theorem readDigits_hexadecimal {digit : Nat → Char} (hdigit : ∀ d < 16, digitValue 16 (digit d) = some d) {n : Nat}
    (h : n < 256) : readDigits 16 (if n < 16 then [digit n] else [digit (n / 16), digit (n % 16)]) 0 = some n := by
  split_ifs with h16
  · rw [readDigits_cons (hdigit n h16), readDigits]; simp
  · rw [readDigits_cons (hdigit (n / 16) (by omega)), readDigits_cons (hdigit (n % 16) (by omega)), readDigits]
    congr 1; omega

/-- With no `0x` before it a numeral is decimal. -/
theorem readNumber_of_readDigits {digits : List Char} {n : Nat} (hne : digits ≠ [])
    (h : readDigits 10 digits 0 = some n) : readNumber digits = some n := by
  have hx : 'x' ∉ digits := not_mem_of_readDigits h rfl
  unfold readNumber
  split
  · exact absurd rfl hne
  · simp at hx
  · simp at hx
  · exact h

/-- After `0x` a numeral is hexadecimal. -/
theorem readNumber_of_hexadecimal {digits : List Char} {n : Nat} (hne : digits ≠ [])
    (h : readDigits 16 digits 0 = some n) : readNumber ('0' :: 'x' :: digits) = some n := by
  cases digits with
  | nil => exact absurd rfl hne
  | cons ch rest => exact h

/-- Reading a numeral of any form gives its number, and no numeral holds a comma. -/
theorem readNumber_numeralText (form : Numeral) {n : Nat} (h : n < 256) :
    readNumber (numeralText form n) = some n ∧ ',' ∉ numeralText form n := by
  have hexadecimal {digits : List Char} (hne : digits ≠ []) (hd : readDigits 16 digits 0 = some n) :
      readNumber ('0' :: 'x' :: digits) = some n ∧ ',' ∉ '0' :: 'x' :: digits :=
    ⟨readNumber_of_hexadecimal hne hd, by simpa using not_mem_of_readDigits hd (ch := ',') rfl⟩
  cases form with
  | decimal =>
    have hd := readDigits_decimalText (n := n) (by omega)
    have hne : decimalText n ≠ [] := by unfold decimalText; split_ifs <;> simp
    exact ⟨readNumber_of_readDigits hne hd, not_mem_of_readDigits hd rfl⟩
  | hexadecimal => exact hexadecimal (by split_ifs <;> simp) (readDigits_hexadecimal digitValue_hexDigit h)
  | hexadecimalLower => exact hexadecimal (by split_ifs <;> simp) (readDigits_hexadecimal digitValue_hexDigitLower h)

/-! ### Names -/

theorem operationNamed_operationText (i : Instr) : operationNamed (operationText i) i.channel i.value = some i := by
  cases i <;> rfl

theorem space_not_mem_operationText (i : Instr) : ' ' ∉ operationText i := by
  cases i <;> simp [operationText]

/-- A name that selects an operation is that operation's, with the operands given to it. -/
theorem operationNamed_eq_some {name : List Char} {c v : Int} {i : Instr} (h : operationNamed name c v = some i) :
    name = operationText i ∧ i.channel = c ∧ i.value = v := by
  unfold operationNamed at h
  split_ifs at h with hname hname hname hname <;> cases h <;> exact ⟨hname, rfl, rfl⟩

/-! ### Whole requests -/

/-- A request's text is read part by part. -/
theorem assemble_of_parts {name channelText valueText : List Char} {c v : Nat} {i : Instr} (hname : ' ' ∉ name)
    (hcomma : ',' ∉ channelText) (hc : readNumber channelText = some c) (hv : readNumber valueText = some v)
    (hi : operationNamed name c v = some i) :
    assemble (name ++ ' ' :: channelText ++ ',' :: ' ' :: valueText) =
      if i.wellFormed then .ok i else .error .operandOutOfRange := by
  rw [List.append_assoc, List.cons_append, assemble, cutAt_append hname]
  simp only [cutAt_append hcomma, hc, hv, hi]

/-- Everything a text that assembles is. -/
theorem assemble_eq_ok {text : List Char} {i : Instr} (h : assemble text = .ok i) :
    i.wellFormed = true ∧ ∃ (name channelText valueText : List Char) (c v : Nat),
      text = name ++ ' ' :: channelText ++ ',' :: ' ' :: valueText ∧ readNumber channelText = some c ∧
      readNumber valueText = some v ∧ operationNamed name c v = some i := by
  unfold assemble at h
  split at h
  next => cases h
  next name operands hcut =>
    split at h
    next channelText valueText hcomma =>
      split at h
      next c v hc hv =>
        split at h
        next => cases h
        next j hj =>
          split_ifs at h with hw
          cases h
          refine ⟨hw, name, channelText, valueText, c, v, ?_, hc, hv, hj⟩
          rw [eq_append_of_cutAt hcut, eq_append_of_cutAt hcomma, List.append_assoc, List.cons_append]
      next => cases h
    next => cases h

/-- The written form of an operation with operands below 256: it assembles to itself, or is refused for an operand. -/
theorem assemble_requestText (channelForm valueForm : Numeral) {i : Instr} (hc0 : 0 ≤ i.channel) (hc1 : i.channel < 256)
    (hv0 : 0 ≤ i.value) (hv1 : i.value < 256) :
    assemble (requestText channelForm valueForm i) =
      if i.wellFormed then .ok i else .error .operandOutOfRange := by
  obtain ⟨hc, hcomma⟩ := readNumber_numeralText channelForm (n := i.channel.toNat) (by omega)
  obtain ⟨hv, -⟩ := readNumber_numeralText valueForm (n := i.value.toNat) (by omega)
  refine assemble_of_parts (space_not_mem_operationText i) hcomma hc hv ?_
  rw [Int.toNat_of_nonneg hc0, Int.toNat_of_nonneg hv0, operationNamed_operationText]

/-- A well-formed operation, written with either numeral for each operand, assembles to itself. -/
theorem assemble_requestText_of_wellFormed (channelForm valueForm : Numeral) {i : Instr} (h : i.wellFormed = true) :
    assemble (requestText channelForm valueForm i) = .ok i := by
  obtain ⟨⟨hc0, hc1⟩, hv0, hv1⟩ := (Instr.wellFormed_iff i).1 h
  rw [assemble_requestText channelForm valueForm hc0 (by omega) hv0 (by omega), if_pos h]

/-- Settles O11: the two outcomes of a request's own text, and the inversion `assemble_eq_ok` for any other. -/
theorem assemblyTextRoundTrips : Obligations.AssemblyTextRoundTrips := by
  refine ⟨fun i h => assemble_requestText_of_wellFormed .decimal .decimal h,
    fun channelForm valueForm i h => assemble_requestText_of_wellFormed channelForm valueForm h,
    fun channelForm valueForm i hc0 hc1 hv0 hv1 h => ?refused, fun text i h => ?sound⟩
  case refused => rw [assemble_requestText channelForm valueForm hc0 hc1 hv0 hv1, h]; rfl
  case sound =>
    obtain ⟨hw, name, channelText, valueText, c, v, rfl, hc, hv, hi⟩ := assemble_eq_ok h
    obtain ⟨rfl, hchannel, hvalue⟩ := operationNamed_eq_some hi
    exact ⟨hw, c, v, channelText, valueText, hc, hv, hchannel, hvalue, rfl⟩

end Sys2Proof.Machine
end
